-- ==== Sys2Proof/Word.lean ====
section
/-! DEFINITION. The byte, the only word the block's storage holds (spec/00_scope.md R8, spec/20_memory.md R62).
Every other stored value of the spec is a natural with a stated range, because its width is a parameter (R7, R8). -/

namespace Sys2Proof

/-- A byte is an unsigned 8-bit value (R8). -/
abbrev Byte := BitVec 8

end Sys2Proof
end

