-- ==== Sys2Proof/Config.lean ====
section
/-! DEFINITION. What is fixed for a run: the parameters of spec/00_scope.md R7, the command table with its handlers
(spec/10_state.md R40, spec/42_framer.md R150), and the one free value of the model, the byte an unwritten cell holds. -/

namespace Sys2Proof

/-- What the ingest path hands received bytes to (R5, R7, conflict C1). -/
inductive Sink where
  | loopback
  | console
  deriving DecidableEq, Repr

/-- The operations a handler may issue, and no others (R150). -/
inductive HandlerOp where
  | wtext (data : List Byte)
  | chen (ch : Nat)
  | chdis (ch : Nat)
  | chper (ch period : Nat)
  | pinset (ch : Nat) (level : Bool)
  deriving DecidableEq, Repr

/-- What a handler may look at while it runs: the count its last WTEXT returned (R125, R236) and the channel records
it shares with the sequencer (R195). DESIGN CHOICE (log 4): R150 leaves to the model which state a handler reads. -/
inductive HandlerQuery where
  | accepted (least : Nat)
  | enabled (ch : Nat)
  | level (ch : Nat)
  | periodIs (ch period : Nat)
  deriving DecidableEq, Repr

/-- One call of a handler: a finite sequence of operations, then the return (R150). It ends by construction.
DESIGN CHOICE (log 4). -/
inductive HandlerProg where
  | done
  | op (o : HandlerOp) (next : HandlerProg)
  | ask (q : HandlerQuery) (yes no : HandlerProg)
  deriving DecidableEq, Repr

/-- A handler as plain data: what it does on each listed argument string, and on every other one. An argument string
holds fewer bytes than a line, so a finite list gives every function of the arguments. DESIGN CHOICE (log 4). -/
structure Handler where
  cases : List (List Byte × HandlerProg)
  other : HandlerProg
  deriving DecidableEq, Repr

/-- CommandEntry: a name, a usage string no rule reads, and a handler (R40). -/
structure CommandEntry where
  name : List Byte
  usage : List Byte
  handler : Handler
  deriving DecidableEq, Repr

/-- The twelve parameters of R7. -/
structure Params where
  ringCap : Nat
  rxBurst : Nat
  txBurst : Nat
  sink : Sink
  lineCap : Nat
  termEcho : List Byte
  echoEmptyTerm : Bool
  cmdTable : List CommandEntry
  unknownMsg : List Byte
  nCh : Nat
  /-- Nominal tick interval; no rule reads it (R7, R241). -/
  tickMs : Nat
  tsW : Nat
  deriving DecidableEq, Repr

/-- R7: command names are non-empty and hold no space byte. -/
def tableOk (table : List CommandEntry) : Bool :=
  table.all fun e => !e.name.isEmpty && !e.name.contains 0x20#8

/-- The constraints of R7. -/
abbrev Params.wf (p : Params) : Prop :=
  1 ≤ p.ringCap ∧ 1 ≤ p.rxBurst ∧ 1 ≤ p.txBurst ∧ 2 ≤ p.lineCap ∧ 1 ≤ p.nCh ∧ 1 ≤ p.tickMs ∧ 1 ≤ p.tsW ∧
    tableOk p.cmdTable = true

/-- The defaults of R7. The parameters the spec leaves OPEN are DESIGN CHOICE: `sink` (log 2), `cmdTable` and
`unknownMsg` (log 3; BOOT supplies them). -/
def Params.default : Params where
  ringCap := 64
  rxBurst := 64
  txBurst := 64
  sink := .console
  lineCap := 64
  termEcho := [0x0D#8, 0x0A#8]
  echoEmptyTerm := true
  cmdTable := []
  unknownMsg := []
  nCh := 4
  tickMs := 10
  tsW := 32

/-- The two byte arrays (R60). -/
inductive ArrayName where
  | ringMem
  | lineBuf
  deriving DecidableEq, Repr

/-- FREE VALUE (log 7): the byte in a cell nothing has written since reset number `epoch` (R23, R33, R221; U4 of
spec/93_implementation_defined.md, treatment `any value`). No body: nothing in Lean can evaluate it. -/
opaque Config.staleByte (epoch : Nat) (array : ArrayName) (index : Nat) : Byte

end Sys2Proof
end

