-- ==== Sys2Proof/Syntax.lean ====
section
/-! DEFINITION. The operations of the block as syntax: one constructor per row of spec/opcode_table.json
(spec/30_encoding.md R82), their operation codes and formats (R80, R82), and who issues them (R87). -/

namespace Sys2Proof

/-- One constructor per row of the table. FEED is one code whose byte selects one of four rows (R82, R85). -/
inductive Instr where
  | put (data : List Byte)
  | get (most : Nat)
  | space
  | used
  | rxrdy
  | txrdy
  | wtext (data : List Byte)
  | feedTerm (b : Byte)
  | feedErase (b : Byte)
  | feedPrint (b : Byte)
  | feedOther (b : Byte)
  | dispatch (line : List Byte)
  | tick
  | chen (ch : Nat)
  | chdis (ch : Nat)
  | chper (ch period : Nat)
  | pinset (ch : Nat) (level : Bool)
  deriving DecidableEq, Repr

/-- The 14 operations (R2, R82). -/
inductive Opcode where
  | put | get | space | used
  | rxrdy | txrdy | wtext
  | feed | dispatch
  | tick | chen | chdis | chper | pinset
  deriving DecidableEq, Repr

/-- The six record formats (R80). -/
inductive Format where
  | N | D | V | B | C | CV
  deriving DecidableEq, Repr

/-- The four byte classes of the framer (R85). -/
inductive ByteClass where
  | term
  | erase
  | print
  | other
  deriving DecidableEq, Repr

/-- Who sends the block an operation record (R87), and the test bench R87 and R92 speak of. -/
inductive Issuer where
  | bridge
  | transport
  | handler
  | dispatcher
  | framer
  | timer
  | bench
  deriving DecidableEq, Repr

/-- The two execution contexts (R194). -/
inductive Context where
  | event
  | task
  deriving DecidableEq, Repr

end Sys2Proof
end

