-- ==== Sys2Proof/Machine/Operands.lean ====
section
/-! DEFINITION. Operand forms and the functions of bytes and numbers the rules use: byte classes (spec/30_encoding.md
R85), case folding, token split and table lookup (spec/42_framer.md R147, R148), elapsed time (spec/43_blink.md R168),
issuers and contexts (spec/30_encoding.md R87). None of them reads the state. -/

namespace Sys2Proof

/-- R85, tested in the order of R141. The byte values are ASCII, which the spec takes from general knowledge (log 17). -/
def byteClass (b : Byte) : ByteClass :=
  if b = 0x0D#8 ∨ b = 0x0A#8 then .term
  else if b = 0x08#8 ∨ b = 0x7F#8 then .erase
  else if 0x20 ≤ b.toNat ∧ b.toNat ≤ 0x7E then .print
  else .other

/-- The blank, the only whitespace (R85). -/
def blank : Byte := 0x20#8

/-- Backspace, blank, backspace (R85, R143). -/
def eraseEcho : List Byte := [0x08#8, blank, 0x08#8]

/-- R148: A to Z onto a to z, nothing else. -/
def foldByte (b : Byte) : Byte :=
  if 0x41 ≤ b.toNat ∧ b.toNat ≤ 0x5A then b + 0x20#8 else b

/-- R148: `fold(s)`. -/
def fold (s : List Byte) : List Byte := s.map foldByte

/-- A line less its leading spaces (the first loop of R147). -/
def skipBlanks (line : List Byte) : List Byte := line.dropWhile (· == blank)

/-- R147: the leading token. -/
def tokenOf (line : List Byte) : List Byte := (skipBlanks line).takeWhile (· != blank)

/-- R147: the argument string, its leading spaces stripped and nothing else. -/
def argsOf (line : List Byte) : List Byte := skipBlanks ((skipBlanks line).dropWhile (· != blank))

/-- R148: the first entry whose folded name is the folded token. -/
def findEntry (table : List CommandEntry) (token : List Byte) : Option CommandEntry :=
  table.find? fun e => fold e.name == fold token

/-- What a handler does on an argument string (R150; log 4). -/
def Handler.progFor (h : Handler) (args : List Byte) : HandlerProg :=
  match h.cases.find? fun c => c.1 == args with
  | some c => c.2
  | none => h.other

/-- `sub_W(now, last)` of R8 and R168, on naturals. -/
def elapsed (w now last : Nat) : Nat := (now + 2 ^ w - last % 2 ^ w) % 2 ^ w

/-- The context an operation runs in (R87, R194). -/
def contextOf : Instr → Context
  | .tick => .task
  | .put _ | .get _ | .space | .used | .rxrdy | .txrdy | .wtext _ | .feedTerm _ | .feedErase _ | .feedPrint _
  | .feedOther _ | .dispatch _ | .chen _ | .chdis _ | .chper _ _ | .pinset _ _ => .event

/-- The call an issuer's record belongs to: the agents of the event context act only while a call of theirs runs inside an
event (R150, R194, R200), and the transport, the timer and a test bench only while none does (R190, R192, R230). -/
def Issuer.call : Issuer → Option Issuer
  | .bridge => some .bridge
  | .handler => some .handler
  | .dispatcher => some .dispatcher
  | .framer => some .framer
  | .transport | .timer | .bench => none

/-- The context an issuer acts from (R87); a test bench acts from the context of what it issues (DEDUCED, log 10). -/
def issuerContext : Issuer → Instr → Context
  | .timer, _ => .task
  | .bench, i => contextOf i
  | .bridge, _ | .transport, _ | .handler, _ | .dispatcher, _ | .framer, _ => .event

/-- The table of R87, row by row, with a test bench for the operations of the FIFO (R87) and of the sequencer (R92 and
spec/95_test_vectors.md P4; DEDUCED, log 10). -/
def mayIssue (who : Issuer) : Instr → Bool
  | .put _ | .get _ | .space => who == .bridge || who == .bench
  | .used => who == .bench
  | .rxrdy | .txrdy => who == .transport
  | .wtext _ => who == .handler || who == .dispatcher || who == .framer
  | .feedTerm _ | .feedErase _ | .feedPrint _ | .feedOther _ => who == .bridge
  | .dispatch _ => who == .framer
  | .tick => who == .timer || who == .bench
  | .chen _ | .chdis _ | .chper _ _ | .pinset _ _ => who == .handler || who == .bench

end Sys2Proof
end

