-- ==== Sys2Proof/WellFormed.lean ====
section
/-! DEFINITION. Which instructions an operation record can hold: every operand fits its field and keeps the limits of
spec/30_encoding.md R80 to R83. -/

namespace Sys2Proof

/-- A byte sequence fits a `len` field of 16 bits (R80). -/
def dataFits (data : List Byte) : Bool := decide (data.length < 2 ^ 16)

/-- A natural fits a `val` field of TS_W bits (R80). -/
def valFits (p : Params) (v : Nat) : Bool := decide (v < 2 ^ p.tsW)

/-- A channel index fits its 8 bits and names a channel (R80, R83). -/
def chanFits (p : Params) (ch : Nat) : Bool := decide (ch < 2 ^ 8) && decide (ch < p.nCh)

/-- The instruction can stand in a record that the block does not refuse (R80, R83, R85). -/
def Instr.wf (p : Params) : Instr → Bool
  | .put data => dataFits data
  | .get most => valFits p most
  | .space => true
  | .used => true
  | .rxrdy => true
  | .txrdy => true
  | .wtext data => dataFits data
  | .feedTerm b => byteClass b == .term && valFits p b.toNat
  | .feedErase b => byteClass b == .erase && valFits p b.toNat
  | .feedPrint b => byteClass b == .print && valFits p b.toNat
  | .feedOther b => byteClass b == .other && valFits p b.toNat
  | .dispatch line => dataFits line
  | .tick => true
  | .chen ch => chanFits p ch
  | .chdis ch => chanFits p ch
  | .chper ch period => chanFits p ch && valFits p period
  | .pinset ch level => chanFits p ch && valFits p level.toNat

end Sys2Proof
end

