-- ==== Sys2Proof/Decode.lean ====
section
/-! DEFINITION. The decoder of operation records, total on any bytes and refusing by name, and after it the encoder,
both from spec/30_encoding.md R80 to R84 and spec/opcode_table.json. -/

namespace Sys2Proof

/-- Why a record is refused (R83). -/
inductive DecodeError where
  /-- Fewer than the four bytes of the header word. -/
  | truncatedHeader
  /-- An `op` value not in R82. -/
  | reservedOp (op : Byte)
  /-- A field its format says must be zero is not. -/
  | mustBeZero
  /-- `ch >= N_CH` in a format that uses `ch`. -/
  | channelOutOfRange (ch : Nat)
  /-- Fewer bytes than the `val` word takes. -/
  | truncatedVal
  /-- A bit of the `val` bytes above the TS_W bits of the word (DEDUCED, log 13). -/
  | valTooWide
  /-- Fewer data bytes than `len` says. -/
  | truncatedData
  deriving DecidableEq, Repr

/-- The number bytes spell, most significant first (R80). -/
def beNat (bytes : List Byte) : Nat := bytes.foldl (fun n b => n * 256 + b.toNat) 0

/-- A number as `k` bytes, most significant first (R80). -/
def natBE : Nat → Nat → List Byte
  | 0, _ => []
  | k + 1, n => natBE k (n / 256) ++ [BitVec.ofNat 8 n]

/-- The bytes a `val` word takes: ceil(TS_W / 8) (R80). -/
def valBytes (p : Params) : Nat := (p.tsW + 7) / 8

/-- The codes of R82. -/
def Opcode.code : Opcode → Byte
  | .put => 0x10#8
  | .get => 0x11#8
  | .space => 0x12#8
  | .used => 0x13#8
  | .rxrdy => 0x20#8
  | .txrdy => 0x21#8
  | .wtext => 0x22#8
  | .feed => 0x30#8
  | .dispatch => 0x31#8
  | .tick => 0x40#8
  | .chen => 0x41#8
  | .chdis => 0x42#8
  | .chper => 0x43#8
  | .pinset => 0x44#8

/-- The operations, in the order of the table (R82). -/
def Opcode.all : List Opcode :=
  [.put, .get, .space, .used, .rxrdy, .txrdy, .wtext, .feed, .dispatch, .tick, .chen, .chdis, .chper, .pinset]

/-- The operation an `op` byte selects; every other value is reserved (R82, R83). -/
def Opcode.ofByte (b : Byte) : Option Opcode := Opcode.all.find? fun o => o.code == b

/-- The format column of R82. -/
def Opcode.format : Opcode → Format
  | .space | .used | .rxrdy | .txrdy | .tick => .N
  | .put | .wtext | .dispatch => .D
  | .get => .V
  | .feed => .B
  | .chen | .chdis => .C
  | .chper | .pinset => .CV

/-- The row of FEED that a byte selects (R82, R85). -/
def feedInstr (b : Byte) : Instr :=
  match byteClass b with
  | .term => .feedTerm b
  | .erase => .feedErase b
  | .print => .feedPrint b
  | .other => .feedOther b

/-- The instruction an operation and its fields make (R80, R81); fields its format lacks are not read. -/
def Opcode.build (o : Opcode) (ch val : Nat) (data : List Byte) : Instr :=
  match o with
  | .put => .put data
  | .get => .get val
  | .space => .space
  | .used => .used
  | .rxrdy => .rxrdy
  | .txrdy => .txrdy
  | .wtext => .wtext data
  | .feed => feedInstr (BitVec.ofNat 8 val)
  | .dispatch => .dispatch data
  | .tick => .tick
  | .chen => .chen ch
  | .chdis => .chdis ch
  | .chper => .chper ch val
  | .pinset => .pinset ch (val == 1)

/-- How many low bits of `val` an operation uses; the others must be 0 (R80: FEED `val[7:0]`, PINSET `val[0]`). -/
def Opcode.valLimit (p : Params) : Opcode → Nat
  | .feed => 2 ^ 8
  | .pinset => 2
  | .get | .chper => 2 ^ p.tsW
  | .put | .space | .used | .rxrdy | .txrdy | .wtext | .dispatch | .tick | .chen | .chdis => 1

/-- The `val` word at the front of some bytes, and what follows it (R80). -/
def takeVal (p : Params) (o : Opcode) (body : List Byte) : Except DecodeError (Nat × List Byte) :=
  if body.length < valBytes p then .error .truncatedVal
  else if 2 ^ p.tsW ≤ beNat (body.take (valBytes p)) then .error .valTooWide
  else if o.valLimit p ≤ beNat (body.take (valBytes p)) then .error .mustBeZero
  else .ok (beNat (body.take (valBytes p)), body.drop (valBytes p))

/-- The operand fields behind a header, by format (R80, R83): the instruction and the bytes after the record. -/
def decodeBody (p : Params) (o : Opcode) (ch len : Nat) (body : List Byte) : Except DecodeError (Instr × List Byte) :=
  match o.format with
  | .N => if ch = 0 ∧ len = 0 then .ok (o.build 0 0 [], body) else .error .mustBeZero
  | .D =>
    if ch ≠ 0 then .error .mustBeZero
    else if body.length < len then .error .truncatedData
    else .ok (o.build 0 0 (body.take len), body.drop len)
  | .V | .B =>
    if ch = 0 ∧ len = 0 then (takeVal p o body).map fun r => (o.build 0 r.1 [], r.2)
    else .error .mustBeZero
  | .C =>
    if len ≠ 0 then .error .mustBeZero
    else if p.nCh ≤ ch then .error (.channelOutOfRange ch)
    else .ok (o.build ch 0 [], body)
  | .CV =>
    if len ≠ 0 then .error .mustBeZero
    else if p.nCh ≤ ch then .error (.channelOutOfRange ch)
    else (takeVal p o body).map fun r => (o.build ch r.1 [], r.2)

/-- The first record of some bytes and the bytes after it, or why it is refused (R80, R83, R84). -/
def decode (p : Params) : List Byte → Except DecodeError (Instr × List Byte)
  | op :: ch :: lenHi :: lenLo :: body =>
    match Opcode.ofByte op with
    | some o => decodeBody p o ch.toNat (beNat [lenHi, lenLo]) body
    | none => .error (.reservedOp op)
  | _ => .error .truncatedHeader

/-- The operation of an instruction (R82). -/
def Instr.opcode : Instr → Opcode
  | .put _ => .put
  | .get _ => .get
  | .space => .space
  | .used => .used
  | .rxrdy => .rxrdy
  | .txrdy => .txrdy
  | .wtext _ => .wtext
  | .feedTerm _ => .feed
  | .feedErase _ => .feed
  | .feedPrint _ => .feed
  | .feedOther _ => .feed
  | .dispatch _ => .dispatch
  | .tick => .tick
  | .chen _ => .chen
  | .chdis _ => .chdis
  | .chper _ _ => .chper
  | .pinset _ _ => .pinset

/-- The `ch` field, 0 where unused (R80). -/
def Instr.chField : Instr → Nat
  | .chen ch | .chdis ch | .chper ch _ | .pinset ch _ => ch
  | .put _ | .get _ | .space | .used | .rxrdy | .txrdy | .wtext _ | .feedTerm _ | .feedErase _ | .feedPrint _
  | .feedOther _ | .dispatch _ | .tick => 0

/-- The `val` field, where the format has one (R80, R81). -/
def Instr.valField : Instr → Option Nat
  | .get most => some most
  | .feedTerm b | .feedErase b | .feedPrint b | .feedOther b => some b.toNat
  | .chper _ period => some period
  | .pinset _ level => some level.toNat
  | .put _ | .space | .used | .rxrdy | .txrdy | .wtext _ | .dispatch _ | .tick | .chen _ | .chdis _ => none

/-- The data bytes, where the format has them (R80). -/
def Instr.dataField : Instr → List Byte
  | .put data | .wtext data | .dispatch data => data
  | .get _ | .space | .used | .rxrdy | .txrdy | .feedTerm _ | .feedErase _ | .feedPrint _ | .feedOther _ | .tick
  | .chen _ | .chdis _ | .chper _ _ | .pinset _ _ => []

/-- The four bytes of the header word (R80). -/
def Instr.header (i : Instr) : List Byte :=
  [i.opcode.code, BitVec.ofNat 8 i.chField] ++ natBE 2 i.dataField.length

/-- The record of a well-formed instruction (R80). -/
def encode (p : Params) (i : Instr) : List Byte :=
  i.header ++ (match i.valField with
    | some v => natBE (valBytes p) v
    | none => []) ++ i.dataField

/-- The bytes of a record whose bits are `w`, numbered as spec/opcode_table.json numbers them: the header word is bits
31 to 0 and the word after it bits 32 and up; every bit from `nbits` on is 0, and so is every data byte. -/
def tableRecord (p : Params) (nbits w : Nat) : List Byte :=
  natBE 4 (w % 2 ^ nbits) ++ natBE (valBytes p) (w % 2 ^ nbits / 2 ^ 32) ++ List.replicate (w % 2 ^ nbits % 2 ^ 16) 0#8

/-- What the decoder reads from that record, with the default parameters of R7 (TS_W = 32, N_CH = 4). -/
def decodeTableWord (nbits w : Nat) : Option Instr :=
  match decode .default (tableRecord .default nbits w) with
  | .ok r => some r.1
  | .error _ => none

end Sys2Proof
end

