-- ==== Sys2Proof/Machine/State.lean ====
section
/-! DEFINITION. The state of the block, element by element as spec/10_state.md names it, with the hidden state of its
collaborators (R41), the parameters it runs under (spec/00_scope.md R7), and the model's own fields for what the
environment brings (R10, R92) and what an observer sees. Plain data throughout. -/

namespace Sys2Proof.Machine

/-- A byte array: the cells written since reset, by index (R23, R33, R64). -/
abbrev Memory := List Host.Cell

/-- RingBuffer (R23 to R26). -/
structure RingBuffer where
  mem : Memory
  wr : Nat
  rd : Nat
  count : Nat
  deriving DecidableEq, Repr

/-- LineBuffer (R33). -/
structure LineBuffer where
  buf : Memory
  cursor : Nat
  deriving DecidableEq, Repr

/-- BlinkChannel (R34 to R37). -/
structure BlinkChannel where
  enabled : Bool
  periodMs : Nat
  lastToggle : Nat
  state : Bool
  deriving DecidableEq, Repr

/-- A channel out of reset: disabled, everything 0 (R34 to R37, R44). -/
def BlinkChannel.reset : BlinkChannel where
  enabled := false
  periodMs := 0
  lastToggle := 0
  state := false

/-- The answers the environment gives the next operation (R10; log 5). `read` and `write` are cut to the range R196 and
R197 allow, so every legal answer is some draw and every draw a legal answer; each reading of the clock takes the next
element of `clock`, the milliseconds that have passed since the reading before (0 when none is left). -/
structure Draws where
  read : Nat
  write : Nat
  clock : List Nat
  deriving DecidableEq, Repr

/-- The four classes of soft condition (R180 to R184). `malformedInput` is raised inside handlers only (R182), which are
outside the block: no rule of the block notes it. -/
inductive SoftClass where
  | capacityOverflow
  | malformedInput
  | unknownCommand
  | partialTransfer
  deriving DecidableEq, Repr

/-- What an observer of the block sees it do: its calls on the collaborators with their answers (R196 to R199), each
dispatch (R147) and each soft condition (R180). The model's own record (log 9). -/
inductive LogEntry where
  | enableRx
  | disableRx
  | enableTx
  | disableTx
  | read (asked : Nat) (got : List Byte)
  | write (offered : List Byte) (accepted : Nat)
  | setLevel (ch : Nat) (level : Bool)
  | now (time : Nat)
  | dispatch (token args : List Byte)
  | note (kind : SoftClass)
  deriving DecidableEq, Repr

/-- What an operation hands back to its caller (R80, R82; log 9). -/
inductive OpResult where
  | none
  | count (n : Nat)
  | bytes (data : List Byte)
  deriving DecidableEq, Repr

/-- One element of a trace (R92): an operation record with its issuer and draws, or an environment step (R91). -/
inductive TraceItem where
  | record (who : Issuer) (bytes : List Byte) (draws : Draws)
  /-- RESET (R220). -/
  | reset
  /-- BOOT, with what the command layer supplies in its first step (R226). -/
  | boot (table : List CommandEntry) (unknownMsg : List Byte)
  /-- ARRIVE: bytes reach the transport (R91). -/
  | arrive (data : List Byte)
  /-- A non-recoverable transport fault (R185, U3; log 15). -/
  | transportFault
  deriving DecidableEq, Repr

/-- The machine. -/
structure State where
  /-- The parameters (R7); no operation writes them. -/
  cfg : Params
  ring : RingBuffer
  throttle : Bool
  rxNotifyEn : Bool
  txNotifyEn : Bool
  putDrop : Nat
  txDrop : Nat
  line : LineBuffer
  /-- `ch[0 .. N_CH)` (R34 to R37, R60). -/
  ch : List BlinkChannel
  /-- `pin_out[0 .. N_CH)` (R38). -/
  pinOut : List Bool
  /-- Bytes the transport holds unread (R41 H1). -/
  rxq : List Byte
  /-- Bytes the transport has accepted for sending (R41 H2). -/
  txlog : List Byte
  /-- Milliseconds of the clock, before wrapping to TS_W bits (R41 H5, R199; log 20). -/
  clock : Nat
  /-- BOOT has finished (R226). -/
  booted : Bool
  /-- The agent of the event context whose call is running, if one is: none between steps, since an event is one step with
  every call it makes (R67, R190). The model's own; no step sets it (log 29). -/
  calling : Option Issuer
  /-- How many RESETs there have been: the model's own, for the free values of unwritten cells (log 7). -/
  epoch : Nat
  draws : Draws
  /-- The trace still to run (R92; log 6). -/
  schedule : List TraceItem
  result : OpResult
  log : List LogEntry
  deriving DecidableEq, Repr

/-- What stops the machine. -/
inductive Fault where
  /-- A non-recoverable transport fault, raised by the trace item of that name (R185; U3: `stuck`, the run ends there).
  Safe: nothing is claimed of what follows. -/
  | nonRecoverableTransport
  deriving DecidableEq, Repr

/-- What has no step. A refused record changes no state, calls no collaborator and returns nothing (R83). -/
inductive Refusal where
  /-- An arm of `exec` that has no meaning yet: raised by `exec` there, and safe. No such arm is left. -/
  | notModelled (mnemonic : String)
  /-- The record does not decode (R83). Raised by delivery. Safe. -/
  | badRecord (why : DecodeError)
  /-- The issuer may not issue this operation (R87, R231 E3 to E5). Raised by delivery. Safe. -/
  | issuerNotAllowed (who : Issuer)
  /-- Something other than a test bench acts before BOOT has finished (R226, R231 E2). Raised by delivery. Safe. -/
  | notBooted
  /-- A call of the bridge, the framer, the dispatcher or a handler while no such call is running (R92, R200, R231 E5), or an
  event, a tick or a test bench's operation while one is (R192, R230, R231 E2). Raised by delivery. Safe. -/
  | outsideItsCall (who : Issuer)
  /-- An event whose notification is disabled (R187, R188, R231 E1). Raised by delivery. Safe. -/
  | notificationDisabled
  /-- A second BOOT without a RESET before it (R226). Raised by delivery. Safe. -/
  | alreadyBooted
  /-- BOOT in a state whose elements are not at their reset values (R226 step 3). Raised by delivery. Safe. -/
  | notAtReset
  /-- BOOT with a command table that R7 does not allow. Raised by delivery. Safe. -/
  | badCommandTable
  /-- A channel command with `ch >= N_CH` (R83, R171). Raised by CHEN, CHDIS, CHPER and PINSET. Safe. -/
  | channelOutOfRange (ch : Nat)
  /-- A period of more than TS_W bits, which no record holds and no field stores (R80, R168). Raised by CHPER. Safe. -/
  | valueTooWide (val : Nat)
  /-- FEED or DISPATCH where `SINK = LOOPBACK`: the framer is absent (42_framer.md, R33, R87; log 11). Safe. -/
  | framerAbsent
  deriving DecidableEq, Repr

/-- The state after RESET under some parameters, with a transport that holds nothing (R44, R220 to R222). -/
def State.resetOf (cfg : Params) : State where
  cfg := cfg
  ring := { mem := [], wr := 0, rd := 0, count := 0 }
  throttle := false
  rxNotifyEn := false
  txNotifyEn := false
  putDrop := 0
  txDrop := 0
  line := { buf := [], cursor := 0 }
  ch := List.replicate cfg.nCh .reset
  pinOut := List.replicate cfg.nCh false
  rxq := []
  txlog := []
  clock := 0
  booted := false
  calling := none
  epoch := 0
  draws := { read := 0, write := 0, clock := [] }
  schedule := []
  result := .none
  log := []

/-- The machine right after reset (R44), under the default parameters of R7, with nothing scheduled. The clock's value is
DESIGN CHOICE (log 8; U12: any value); the draws are DESIGN CHOICE (log 5). -/
def State.reset : State := .resetOf .default

end Sys2Proof.Machine
end

