-- ==== Sys2Proof/Machine/Flags.lean ====
section
/-! DEFINITION. The conditions the rules use and store nowhere (spec/10_state.md R42; spec/43_blink.md R161, R167). The block
has no arithmetic condition codes; its stored flags are fields of State, written only where an operation's rule writes
them. -/

namespace Sys2Proof.Machine

/-- `SPACE`: free cells (R103). -/
def State.space (s : State) : Nat := s.cfg.ringCap - s.ring.count

/-- *full* (R42). -/
def State.full (s : State) : Bool := s.ring.count == s.cfg.ringCap

/-- *empty* (R42). -/
def State.empty (s : State) : Bool := s.ring.count == 0

/-- The line has room for one more printable byte, the last cell being reserved (R144, R146). -/
def State.lineOpen (s : State) : Bool := decide (s.line.cursor < s.cfg.lineCap - 1)

/-- Every state element is at its reset value (R44, R226 step 3); R44 leaves the cells of the two arrays open. -/
def State.atReset (s : State) : Bool :=
  decide (s.ring.count = 0 ∧ s.ring.wr = 0 ∧ s.ring.rd = 0 ∧ s.line.cursor = 0) &&
    (!s.throttle && !s.rxNotifyEn && !s.txNotifyEn && s.calling.isNone) &&
    decide (s.putDrop = 0 ∧ s.txDrop = 0) &&
    decide (s.ch = List.replicate s.cfg.nCh .reset ∧ s.pinOut = List.replicate s.cfg.nCh false)

/-- `ch[i]`; the reset record for an index that names no channel (DESIGN CHOICE, log 26 and 28). -/
def State.chan (s : State) (i : Nat) : BlinkChannel := s.ch.getD i .reset

/-- The output mux selects the sequencer (R167): the channel is enabled and not steady on. -/
def State.muxSelect (s : State) (i : Nat) : Bool := (s.chan i).enabled && (s.chan i).periodMs != 0

/-- A TICK at `now` toggles the channel (R161). -/
def State.due (s : State) (now i : Nat) : Bool :=
  s.muxSelect i && decide ((s.chan i).periodMs ≤ elapsed s.cfg.tsW now (s.chan i).lastToggle)

end Sys2Proof.Machine
end

