-- ==== Sys2Proof/Machine/Ops.lean ====
section
/-! DEFINITION. The named operations the rules are written with: storage cells (spec/20_memory.md R62 to R64), the ring
(spec/40_fifo.md), collaborator calls (spec/60_exceptions.md R196 to R199), soft conditions (R180), the channel
commands and the tick (spec/43_blink.md), the framer and dispatcher (spec/42_framer.md), and the two events of the bridge
(spec/41_bridge.md). No exception diverts control in this block (R180): `State.note` is all that noting a class does. -/

namespace Sys2Proof.Machine

/-! Storage -/

/-- `MemRead`: the byte last written, or no value (R64). -/
def Memory.read : Memory → Nat → Option Byte
  | [], _ => none
  | (k, v) :: m, a => if k = a then some v else Memory.read m a

/-- `MemWrite`: changes one cell (R64). Keeps the list sorted by index. -/
def Memory.write : Memory → Nat → Byte → Memory
  | [], a, b => [(a, b)]
  | (k, v) :: m, a, b =>
    if a < k then (a, b) :: (k, v) :: m
    else if a = k then (a, b) :: m
    else (k, v) :: Memory.write m a b

/-- The canonical form: indices strictly rising. An unlisted cell has no value (R23), so no entry equals one. -/
abbrev Memory.wf (m : Memory) : Prop := m.Pairwise fun x y => x.1 < y.1

/-- The single-byte writes of a PUT: byte `i` to index `(pos + i) mod cap` (R62, R101). -/
def Memory.writeRun (cap : Nat) : Memory → Nat → List Byte → Memory
  | m, _, [] => m
  | m, pos, b :: bs => Memory.writeRun cap (m.write (pos % cap) b) (pos + 1) bs

/-- The byte in a ring cell; a FREE VALUE where nothing has been written (R64, U4; log 7). -/
def State.ringCell (s : State) (i : Nat) : Byte := (s.ring.mem.read i).getD (Config.staleByte s.epoch .ringMem i)

/-- The byte in a line cell, as `ringCell`. -/
def State.lineCell (s : State) (i : Nat) : Byte := (s.line.buf.read i).getD (Config.staleByte s.epoch .lineBuf i)

/-- `n` bytes of the ring from an index on, modulo its capacity (R62). -/
def State.ringRun (s : State) (pos n : Nat) : List Byte :=
  (List.range n).map fun i => s.ringCell ((pos + i) % s.cfg.ringCap)

/-- The content `Q` of the ring: its valid window, oldest first (R27). -/
def State.content (s : State) : List Byte := s.ringRun s.ring.rd s.ring.count

/-- The content of the line: `line.buf[0 .. line.cursor)` (R33). -/
def State.lineText (s : State) : List Byte := (List.range s.line.cursor).map s.lineCell

/-! What leaves an operation -/

/-- Hands a result to the caller (R80; log 9). -/
def State.ret (s : State) (r : OpResult) : State := { s with result := r }

/-- Adds to the observer's record (log 9). -/
def State.say (s : State) (e : LogEntry) : State := { s with log := s.log ++ [e] }

/-- `note <Class>`: the one thing a soft condition does in every class; what else the rule says stands in the rule (R180). -/
def State.note (s : State) (c : SoftClass) : State := s.say (.note c)

/-- The pin and level of a `Pin.set_level` call. -/
def LogEntry.asSetLevel : LogEntry → Option (Nat × Bool)
  | .setLevel i v => some (i, v)
  | _ => none

/-- The `Pin.set_level` calls of a run, in order (R92). -/
def State.pinCalls (s : State) : List (Nat × Bool) := s.log.filterMap (·.asSetLevel)

/-! Collaborators (R196 to R199) -/

def State.enableRx (s : State) : State := { s with rxNotifyEn := true, log := s.log ++ [.enableRx] }

def State.disableRx (s : State) : State := { s with rxNotifyEn := false, log := s.log ++ [.disableRx] }

def State.enableTx (s : State) : State := { s with txNotifyEn := true, log := s.log ++ [.enableTx] }

def State.disableTx (s : State) : State := { s with txNotifyEn := false, log := s.log ++ [.disableTx] }

/-- How many bytes `Transport.read(n)` returns: the draw, at most `n`, and never more than the transport holds (R196). -/
def State.readCount (s : State) (n : Nat) : Nat := min (min s.draws.read n) s.rxq.length

/-- The bytes `Transport.read(n)` returns: the oldest unread ones (R196). -/
def State.chunk (s : State) (n : Nat) : List Byte := s.rxq.take (s.readCount n)

/-- The state after `Transport.read(n)`: the transport no longer holds those bytes (R196). -/
def State.afterRead (s : State) (n : Nat) : State :=
  { s with rxq := s.rxq.drop (s.readCount n), log := s.log ++ [.read n (s.chunk n)] }

/-- How many bytes of `out` a `Transport.write(out)` accepts (R197). -/
def State.writeCount (s : State) (out : List Byte) : Nat := min s.draws.write out.length

/-- The state after `Transport.write(out)`: the accepted bytes are sent after all accepted before (R197). -/
def State.afterWrite (s : State) (out : List Byte) : State :=
  { s with
    txlog := s.txlog ++ out.take (s.writeCount out)
    log := s.log ++ [.write out (s.writeCount out)] }

/-- Milliseconds of the clock at its next reading; never less than at the last one (R199; log 20). -/
def State.nextTime (s : State) : Nat := s.clock + s.draws.clock.headD 0

/-- What `Clock.now()` returns: TS_W bits of them (R199). -/
def State.now (s : State) : Nat := s.nextTime % 2 ^ s.cfg.tsW

/-- The state after `Clock.now()`. -/
def State.afterNow (s : State) : State :=
  { s with
    clock := s.nextTime
    draws := { s.draws with clock := s.draws.clock.tail }
    log := s.log ++ [.now s.now] }

/-- `Pin.set_level(i, v)` (R199), mirrored in `pin_out[i]` (R38). -/
def State.setLevel (s : State) (i : Nat) (v : Bool) : State :=
  { s with pinOut := s.pinOut.set i v, log := s.log ++ [.setLevel i v] }

/-! The ring (R101 to R104) -/

/-- How many of some bytes a PUT accepts (R101). -/
def State.accepts (s : State) (data : List Byte) : Nat := min data.length s.space

/-- The state after PUT (R101): the leading bytes that fit are stored from the write cursor on. -/
def State.put (s : State) (data : List Byte) : State :=
  { s with
    ring :=
      { s.ring with
        mem := s.ring.mem.writeRun s.cfg.ringCap s.ring.wr (data.take (s.accepts data))
        wr := (s.ring.wr + s.accepts data) % s.cfg.ringCap
        count := s.ring.count + s.accepts data } }

/-- The bytes a GET returns: the oldest, at most `most` (R102). -/
def State.front (s : State) (most : Nat) : List Byte := s.ringRun s.ring.rd (min most s.ring.count)

/-- The state after GET: those bytes are removed, and their cells keep what they hold (R102, R64). -/
def State.pop (s : State) (most : Nat) : State :=
  { s with
    ring :=
      { s.ring with
        rd := (s.ring.rd + min most s.ring.count) % s.cfg.ringCap
        count := s.ring.count - min most s.ring.count } }

/-- `Enqueue`, the one way bytes enter the ring (R124): the refused ones are counted and noted (R181), and transmit
notifications are enabled when at least one byte was queued. What it returns is `s.accepts data`. -/
def State.enqueue (s : State) (data : List Byte) : State :=
  let s1 : State := { s.put data with putDrop := s.putDrop + (data.length - s.accepts data) }
  let s2 := if s.accepts data < data.length then s1.note .capacityOverflow else s1
  if 0 < s.accepts data then s2.enableTx else s2

/-! The channels (R161 to R166) -/

/-- Writes the record `ch[i]` and no other (R160). -/
def State.setChan (s : State) (i : Nat) (c : BlinkChannel) : State := { s with ch := s.ch.set i c }

/-- CHEN (R162). -/
def State.chen (s : State) (i : Nat) : State :=
  s.afterNow.setChan i { s.chan i with lastToggle := s.now, enabled := true }

/-- CHDIS (R163). -/
def State.chdis (s : State) (i : Nat) : State := s.setChan i { s.chan i with enabled := false }

/-- CHPER: a period other than 0 is stored and nothing else (R164); period 0 is steady on (R165). -/
def State.chper (s : State) (i p : Nat) : State :=
  if p = 0 then
    (s.setLevel i true).setChan i { s.chan i with periodMs := 0, state := true, enabled := false }
  else s.setChan i { s.chan i with periodMs := p }

/-- PINSET (R166). -/
def State.pinset (s : State) (i : Nat) (v : Bool) : State :=
  (s.setLevel i v).setChan i { s.chan i with state := v }

/-- The body of TICK's loop for one channel (R161). -/
def State.tickChan (s : State) (now i : Nat) : State :=
  if s.due now i then
    (s.setLevel i (!(s.chan i).state)).setChan i { s.chan i with state := !(s.chan i).state, lastToggle := now }
  else s

/-- The loop of TICK over the channels below `n`, in ascending order (R161). -/
def State.tickUpTo (s : State) (now : Nat) : Nat → State
  | 0 => s
  | n + 1 => (State.tickUpTo s now n).tickChan now n

/-- TICK: one reading of the clock, then every channel (R161). -/
def State.tick (s : State) : State := s.afterNow.tickUpTo s.now s.cfg.nCh

/-! Handlers and the dispatcher (R147 to R150) -/

/-- What a handler sees (R150; log 4). `last` is what its last WTEXT returned, 0 before the first. A question about an index
`>= N_CH` is answered as for a channel at its reset values: DESIGN CHOICE, log 28 (the spec is silent). -/
def State.answer (s : State) (last : Nat) : HandlerQuery → Bool
  | .accepted least => decide (least ≤ last)
  | .enabled i => (s.chan i).enabled
  | .level i => (s.chan i).state
  | .periodIs i p => (s.chan i).periodMs == p

/-- One operation of a handler (R150). A command the block refuses has no effect (R83, R171, R231 E6; log 16). A channel
exists for every index below N_CH, also above the 255 that the `ch` field of a record reaches: DESIGN CHOICE, log 27 (R7
bounds N_CH from below only, and a handler's call is no record). -/
def State.handlerOp (s : State) : HandlerOp → State
  | .wtext data => s.enqueue data
  | .chen i => if i < s.cfg.nCh then s.chen i else s
  | .chdis i => if i < s.cfg.nCh then s.chdis i else s
  | .chper i p => if i < s.cfg.nCh ∧ p < 2 ^ s.cfg.tsW then s.chper i p else s
  | .pinset i v => if i < s.cfg.nCh then s.pinset i v else s

/-- What the handler's WTEXTs have returned last, after one more operation (R125). -/
def State.handlerSaw (s : State) (last : Nat) : HandlerOp → Nat
  | .wtext data => s.accepts data
  | .chen _ | .chdis _ | .chper _ _ | .pinset _ _ => last

/-- A handler's call, to its return (R150, R200). -/
def State.runHandler : HandlerProg → Nat → State → State
  | .done, _, s => s
  | .op o next, last, s => State.runHandler next (s.handlerSaw last o) (s.handlerOp o)
  | .ask q yes no, last, s => if s.answer last q then State.runHandler yes last s else State.runHandler no last s

/-- DISPATCH (R147, R149). -/
def State.dispatch (s : State) (line : List Byte) : State :=
  match findEntry s.cfg.cmdTable (tokenOf line) with
  | some e => State.runHandler (e.handler.progFor (argsOf line)) 0 (s.say (.dispatch (tokenOf line) (argsOf line)))
  | none =>
    ((s.say (.dispatch (tokenOf line) (argsOf line))).note .unknownCommand).enqueue s.cfg.unknownMsg

/-! The framer (R141 to R145) -/

/-- Moves the insertion position (R33). -/
def State.setCursor (s : State) (n : Nat) : State := { s with line := { s.line with cursor := n } }

/-- Stores a byte at the insertion position and moves on (R144). -/
def State.append (s : State) (b : Byte) : State :=
  { s with line := { buf := s.line.buf.write s.line.cursor b, cursor := s.line.cursor + 1 } }

/-- FEED.TERM (R142). -/
def State.feedTerm (s : State) : State :=
  if 0 < s.line.cursor then ((s.dispatch s.lineText).enqueue s.cfg.termEcho).setCursor 0
  else if s.cfg.echoEmptyTerm then (s.enqueue s.cfg.termEcho).setCursor 0
  else s.setCursor 0

/-- FEED.ERASE (R143). -/
def State.feedErase (s : State) : State :=
  if 0 < s.line.cursor then (s.setCursor (s.line.cursor - 1)).enqueue eraseEcho else s

/-- FEED.PRINT (R144); a full line notes class (a) (R181). -/
def State.feedPrint (s : State) (b : Byte) : State :=
  if s.lineOpen then (s.append b).enqueue [b] else s.note .capacityOverflow

/-- FEED (R141). FEED.OTHER does nothing (R145). -/
def State.feed (s : State) (b : Byte) : State :=
  match byteClass b with
  | .term => s.feedTerm
  | .erase => s.feedErase
  | .print => s.feedPrint b
  | .other => s

/-- One FEED per byte, in order (R122). -/
def State.feedAll : State → List Byte → State
  | s, [] => s
  | s, b :: bs => State.feedAll (s.feed b) bs

/-! The bridge (R121 to R123) -/

/-- `Deliver` (R122). -/
def State.deliver (s : State) (chunk : List Byte) : State :=
  match s.cfg.sink with
  | .loopback => s.enqueue chunk
  | .console => s.feedAll chunk

/-- What RXRDY asks the transport for (R121). -/
def State.readAsk (s : State) : Nat := min s.space s.cfg.rxBurst

/-- RXRDY (R121). A full ring is class (a) (R181), a short read class (d) (R184). -/
def State.receive (s : State) : State :=
  if s.space = 0 then { s.disableRx.note .capacityOverflow with throttle := true }
  else
    let s1 := s.afterRead s.readAsk
    let s2 := if (s.chunk s.readAsk).length < s.readAsk then s1.note .partialTransfer else s1
    s2.deliver (s.chunk s.readAsk)

/-- Ends a suspended reception once bytes have left the ring (R123, R126). -/
def State.resume (s : State) : State := if s.throttle then { s.enableRx with throttle := false } else s

/-- TXRDY (R123): pop, write, account for what the transport did not take (class (d), R184), resume. -/
def State.transmit (s : State) : State :=
  let out := s.front s.cfg.txBurst
  let s1 := s.pop s.cfg.txBurst
  if out.length = 0 then s1.disableTx
  else
    let s2 : State := { s1.afterWrite out with txDrop := s.txDrop + (out.length - s.writeCount out) }
    let s3 := if s.writeCount out < out.length then s2.note .partialTransfer else s2
    s3.resume

end Sys2Proof.Machine
end

