-- ==== Sys2Proof/Machine/Bridge.lean ====
section
/-! DEFINITION. The transport bridge: RXRDY, TXRDY, WTEXT (spec/41_bridge.md). That an event comes only while its
notification is enabled is a rule about delivery (R187, R188) and stands in Machine/Delivery.lean. -/

namespace Sys2Proof.Machine

/-- RXRDY (R121). -/
def execRxrdy (s : State) : Host.Outcome State Fault Refusal := .next (s.receive.ret .none)

/-- TXRDY (R123). -/
def execTxrdy (s : State) : Host.Outcome State Fault Refusal := .next (s.transmit.ret .none)

/-- WTEXT (R125). -/
def execWtext (data : List Byte) (s : State) : Host.Outcome State Fault Refusal :=
  .next ((s.enqueue data).ret (.count (s.accepts data)))

end Sys2Proof.Machine
end

