-- ==== Sys2Proof/Machine/Fifo.lean ====
section
/-! DEFINITION. The byte ring buffer: PUT, GET, SPACE, USED (spec/40_fifo.md). All four are total (R100). -/

namespace Sys2Proof.Machine

/-- PUT (R101). -/
def execPut (data : List Byte) (s : State) : Host.Outcome State Fault Refusal :=
  .next ((s.put data).ret (.count (s.accepts data)))

/-- GET (R102). -/
def execGet (most : Nat) (s : State) : Host.Outcome State Fault Refusal :=
  .next ((s.pop most).ret (.bytes (s.front most)))

/-- SPACE (R103). -/
def execSpace (s : State) : Host.Outcome State Fault Refusal := .next (s.ret (.count s.space))

/-- USED (R104). -/
def execUsed (s : State) : Host.Outcome State Fault Refusal := .next (s.ret (.count s.ring.count))

end Sys2Proof.Machine
end

