-- ==== Sys2Proof/Machine/Framer.lean ====
section
/-! DEFINITION. The line editor, framer and dispatcher: FEED and DISPATCH (spec/42_framer.md). The family is the sink of
the bridge when `SINK = CONSOLE` and is absent when `SINK = LOOPBACK`, where these operations are refused (log 11). -/

namespace Sys2Proof.Machine

/-- Runs an operation of the framer, where there is one (R5, R33; log 11). -/
def ifFramer (s t : State) : Host.Outcome State Fault Refusal :=
  match s.cfg.sink with
  | .console => .next (t.ret .none)
  | .loopback => .refused .framerAbsent

/-- FEED.TERM (R142). Both terminators behave alike. -/
def execFeedTerm (_ : Byte) (s : State) : Host.Outcome State Fault Refusal := ifFramer s s.feedTerm

/-- FEED.ERASE (R143). Both erase bytes behave alike. -/
def execFeedErase (_ : Byte) (s : State) : Host.Outcome State Fault Refusal := ifFramer s s.feedErase

/-- FEED.PRINT (R144). -/
def execFeedPrint (b : Byte) (s : State) : Host.Outcome State Fault Refusal := ifFramer s (s.feedPrint b)

/-- FEED.OTHER (R145): the byte is silently discarded. -/
def execFeedOther (_ : Byte) (s : State) : Host.Outcome State Fault Refusal := ifFramer s s

/-- DISPATCH (R147). -/
def execDispatch (line : List Byte) (s : State) : Host.Outcome State Fault Refusal := ifFramer s (s.dispatch line)

end Sys2Proof.Machine
end

