-- ==== Sys2Proof/Machine/Sequencer.lean ====
section
/-! DEFINITION. The blink sequencer and output mux: TICK, CHEN, CHDIS, CHPER, PINSET (spec/43_blink.md). -/

namespace Sys2Proof.Machine

/-- Runs a channel command on a channel that exists; refuses any other index without effect (R83, R171). An index above 255,
which no record holds, exists where N_CH is larger: DESIGN CHOICE, log 27. -/
def onChannel (i : Nat) (s t : State) : Host.Outcome State Fault Refusal :=
  if i < s.cfg.nCh then .next (t.ret .none) else .refused (.channelOutOfRange i)

/-- TICK (R161). -/
def execTick (s : State) : Host.Outcome State Fault Refusal := .next (s.tick.ret .none)

/-- CHEN (R162). -/
def execChen (i : Nat) (s : State) : Host.Outcome State Fault Refusal := onChannel i s (s.chen i)

/-- CHDIS (R163). -/
def execChdis (i : Nat) (s : State) : Host.Outcome State Fault Refusal := onChannel i s (s.chdis i)

/-- CHPER (R164, R165). A period of more than TS_W bits cannot be stored (R168): no record holds one (R80). -/
def execChper (i p : Nat) (s : State) : Host.Outcome State Fault Refusal :=
  if p < 2 ^ s.cfg.tsW then onChannel i s (s.chper i p) else .refused (.valueTooWide p)

/-- PINSET (R166). -/
def execPinset (i : Nat) (v : Bool) (s : State) : Host.Outcome State Fault Refusal := onChannel i s (s.pinset i v)

end Sys2Proof.Machine
end

