-- ==== Sys2Proof/Machine/Dispatch.lean ====
section
/-! DEFINITION. The meaning of each instruction, by constructor. -/

namespace Sys2Proof.Machine

def exec (i : Instr) (s : State) : Host.Outcome State Fault Refusal :=
  match i with
  | .put data => Sys2Proof.Machine.execPut data s
  | .get most => Sys2Proof.Machine.execGet most s
  | .space => Sys2Proof.Machine.execSpace s
  | .used => Sys2Proof.Machine.execUsed s
  | .rxrdy => Sys2Proof.Machine.execRxrdy s
  | .txrdy => Sys2Proof.Machine.execTxrdy s
  | .wtext data => Sys2Proof.Machine.execWtext data s
  | .feedTerm b => Sys2Proof.Machine.execFeedTerm b s
  | .feedErase b => Sys2Proof.Machine.execFeedErase b s
  | .feedPrint b => Sys2Proof.Machine.execFeedPrint b s
  | .feedOther b => Sys2Proof.Machine.execFeedOther b s
  | .dispatch line => Sys2Proof.Machine.execDispatch line s
  | .tick => Sys2Proof.Machine.execTick s
  | .chen ch => Sys2Proof.Machine.execChen ch s
  | .chdis ch => Sys2Proof.Machine.execChdis ch s
  | .chper ch period => Sys2Proof.Machine.execChper ch period s
  | .pinset ch level => Sys2Proof.Machine.execPinset ch level s

end Sys2Proof.Machine
end

