-- ==== Sys2Proof/Machine/Delivery.lean ====
section
/-! DEFINITION. How the environment reaches the block: the delivery of an operation record (spec/30_encoding.md R83, R87;
spec/60_exceptions.md R187 to R190) and the environment steps RESET, BOOT and ARRIVE (spec/70_reset_and_hazards.md R220,
R226; spec/30_encoding.md R91). Entry into a context saves nothing and return restores nothing (R190). -/

namespace Sys2Proof.Machine

/-- The notification an event needs is enabled (R187, R188); a tick cannot be disabled (R189). -/
def State.notified (s : State) : Instr → Bool
  | .rxrdy => s.rxNotifyEn
  | .txrdy => s.txNotifyEn
  | .put _ | .get _ | .space | .used | .wtext _ | .feedTerm _ | .feedErase _ | .feedPrint _ | .feedOther _
  | .dispatch _ | .tick | .chen _ | .chdis _ | .chper _ _ | .pinset _ _ => true

/-- Why an issuer's operation has no step now, if so (R87, R226, R231 E1 to E5). Between events no call is running, so only
the transport's events, the timer's ticks and a test bench's operations have a step there (R67, R92, R186). A test bench
may act before BOOT (spec/95_test_vectors.md P1, P4; log 10). -/
def State.barrier (s : State) (who : Issuer) (i : Instr) : Option Refusal :=
  if mayIssue who i = false then some (.issuerNotAllowed who)
  else if s.calling ≠ who.call then some (.outsideItsCall who)
  else if who ≠ .bench ∧ s.booted = false then some .notBooted
  else if s.notified i = false then some .notificationDisabled
  else none

/-- Delivers one record: decode, admit, run to completion with the environment's draws, and return, after which no call is
running (R83, R87, R190). Bytes behind the record are no part of it (R84; log 12). -/
def State.deliverRecord (s : State) (who : Issuer) (bytes : List Byte) (d : Draws) : Host.Outcome State Fault Refusal :=
  match decode s.cfg bytes with
  | .error e => .refused (.badRecord e)
  | .ok r =>
    match s.barrier who r.1 with
    | some why => .refused why
    | none => exec r.1 { s with draws := d, calling := none }

/-- RESET: every state element at its reset value (R44, R220 to R222). What is not the block's goes on: the parameters, the
clock, the environment's draws and trace, and the observer's record (log 21). -/
def State.hardReset (s : State) : State :=
  { State.resetOf s.cfg with
    clock := s.clock
    epoch := s.epoch + 1
    draws := s.draws
    schedule := s.schedule
    log := s.log }

/-- BOOT: the command layer supplies its table and message, and receive notifications are enabled (R226). -/
def State.boot (s : State) (table : List CommandEntry) (unknownMsg : List Byte) : State :=
  { s.enableRx with cfg := { s.cfg with cmdTable := table, unknownMsg := unknownMsg }, booted := true }

/-- Runs one element of the trace (R92). -/
def State.runItem (s : State) : TraceItem → Host.Outcome State Fault Refusal
  | .record who bytes d => s.deliverRecord who bytes d
  | .reset => .next s.hardReset
  | .boot table unknownMsg =>
    if s.booted then .refused .alreadyBooted
    else if s.atReset = false then .refused .notAtReset
    else if tableOk table then .next (s.boot table unknownMsg)
    else .refused .badCommandTable
  | .arrive data => .next { s with rxq := s.rxq ++ data }
  | .transportFault => .fault .nonRecoverableTransport

/-- One step: the next element of the trace; with none left nothing is delivered and nothing changes (R21, R240; log 6). -/
def State.advance (s : State) : Host.Outcome State Fault Refusal :=
  match s.schedule with
  | [] => .next s
  | item :: rest => State.runItem { s with schedule := rest } item

/-- Who a placed record comes from, by its code: the two events from the transport; WTEXT, FEED and DISPATCH, which are calls
inside an event, from a handler, the bridge and the framer; any other operation from a test bench (R87; log 6). -/
def placedBy (bytes : List Byte) : Issuer :=
  match bytes with
  | 0x20#8 :: _ | 0x21#8 :: _ => .transport
  | 0x22#8 :: _ => .handler
  | 0x30#8 :: _ => .bridge
  | 0x31#8 :: _ => .framer
  | _ => .bench

/-- Puts a record at the head of the trace, and what its delivery needs: BOOT over for all but a test bench, the notification
enabled for an event, and the call running for a call inside an event (log 6). -/
def State.place (s : State) (bytes : List Byte) : State :=
  { s with
    schedule := .record (placedBy bytes) bytes s.draws :: s.schedule
    calling := (placedBy bytes).call
    booted := s.booted || placedBy bytes != .bench
    rxNotifyEn := s.rxNotifyEn || bytes.head? == some 0x20#8
    txNotifyEn := s.txNotifyEn || bytes.head? == some 0x21#8 }

end Sys2Proof.Machine
end

