-- ==== Sys2Proof/Machine/Step.lean ====
section
/-! DEFINITION. One step of the machine, and how the host places the next instruction. -/

namespace Sys2Proof.Machine

/-- One atomic step (R65, R67). -/
def step (s : State) : Host.Outcome State Fault Refusal := s.advance

/-- `s` with the record of `decodeTableWord nbits w` next in its trace (log 6). -/
def State.withFetchWord (s : State) (nbits w : Nat) : State := s.place (tableRecord s.cfg nbits w)

end Sys2Proof.Machine
end

