-- ==== Sys2Proof/Safety.lean ====
section
/-! DEFINITION. The invariants the spec states of the block, in the terms claims use: the ring (spec/10_state.md R27), the
line (R33, spec/42_framer.md R147), the channels (R35, R36, R39), and the bridge (R31). -/

namespace Sys2Proof.Machine

/-- I1 to I4 of R27; the cells listed are cells of the array (R60), and those of the valid window have been written (R64). -/
abbrev State.RingInv (s : State) : Prop :=
  s.ring.mem.wf ∧ (∀ c ∈ s.ring.mem, c.1 < s.cfg.ringCap) ∧
  s.ring.count ≤ s.cfg.ringCap ∧ s.ring.wr < s.cfg.ringCap ∧ s.ring.rd < s.cfg.ringCap ∧
  s.ring.wr = (s.ring.rd + s.ring.count) % s.cfg.ringCap ∧
  ∀ i < s.ring.count, (s.ring.mem.read ((s.ring.rd + i) % s.cfg.ringCap)).isSome = true

/-- The invariant of R33: the cursor stays in the buffer, the last cell is never written, and the line holds printable
bytes only (R147). -/
abbrev State.LineInv (s : State) : Prop :=
  s.line.buf.wf ∧ (∀ c ∈ s.line.buf, c.1 < s.cfg.lineCap - 1) ∧ s.line.cursor ≤ s.cfg.lineCap - 1 ∧
  ∀ i < s.line.cursor, (s.line.buf.read i).any (fun b => byteClass b == .print) = true

/-- There are N_CH channels and pins (R34, R38, R39 C3), the stored words fit TS_W bits (R35, R36), and `state` is the pin's
level (R39 C1). -/
abbrev State.ChanInv (s : State) : Prop :=
  s.ch.length = s.cfg.nCh ∧ s.pinOut = s.ch.map (·.state) ∧
  ∀ c ∈ s.ch, c.periodMs < 2 ^ s.cfg.tsW ∧ c.lastToggle < 2 ^ s.cfg.tsW

/-- What holds at reset and after every step. -/
abbrev State.Inv (s : State) : Prop := s.cfg.wf ∧ s.RingInv ∧ s.LineInv ∧ s.ChanInv

/-- B1 to B3 of R31, and that nothing is suspended before BOOT (R226). A test bench that issues PUT or GET past the bridge
breaks B2 and B3, so these are claimed of operations other than a bare PUT or GET. -/
abbrev State.BridgeInv (s : State) : Prop :=
  (s.throttle = true → s.rxNotifyEn = false) ∧
  (0 < s.ring.count → s.txNotifyEn = true) ∧
  (s.throttle = true → s.ring.count = s.cfg.ringCap) ∧
  (s.booted = false → s.throttle = false)

/-- Some instructions in order, to the first that does not answer a next state. -/
def execAll : List Instr → State → Host.Outcome State Fault Refusal
  | [], s => .next s
  | i :: is, s =>
    match exec i s with
    | .next t => execAll is t
    | .fault r => .fault r
    | .refused r => .refused r

/-- Some operations in order, each with its own draws (R92). -/
def execTrace : List (Instr × Draws) → State → Host.Outcome State Fault Refusal
  | [], s => .next s
  | (i, d) :: rest, s =>
    match exec i { s with draws := d } with
    | .next t => execTrace rest t
    | .fault r => .fault r
    | .refused r => .refused r

/-- The instruction a handler's operation is (R150). -/
def handlerInstr : HandlerOp → Instr
  | .wtext data => .wtext data
  | .chen i => .chen i
  | .chdis i => .chdis i
  | .chper i p => .chper i p
  | .pinset i v => .pinset i v

/-- The count an operation handed back, or what was seen before it. -/
def OpResult.seen (r : OpResult) (last : Nat) : Nat :=
  match r with
  | .count n => n
  | .none | .bytes _ => last

/-- A handler's call played by `exec`, one instruction an operation, a refused one skipped (R150, R231 E6). The result port
is kept for the operation that called the handler. -/
def handlerByExec : HandlerProg → Nat → State → State
  | .done, _, s => s
  | .op o next, last, s =>
    match exec (handlerInstr o) s with
    | .next t => handlerByExec next (t.result.seen last) { t with result := s.result }
    | .fault _ | .refused _ => handlerByExec next last s
  | .ask q yes no, last, s => if s.answer last q then handlerByExec yes last s else handlerByExec no last s

/-- The token and arguments of a dispatch. -/
def LogEntry.asDispatch : LogEntry → Option (List Byte × List Byte)
  | .dispatch token args => some (token, args)
  | _ => none

/-- What a read asked for, and what came. -/
def LogEntry.asRead : LogEntry → Option (Nat × List Byte)
  | .read asked got => some (asked, got)
  | _ => none

/-- The lines dispatched so far, each as its token and arguments (R147). -/
def State.dispatched (s : State) : List (List Byte × List Byte) := s.log.filterMap (·.asDispatch)

/-- The reads of the transport so far (R196). -/
def State.reads (s : State) : List (Nat × List Byte) := s.log.filterMap (·.asRead)

end Sys2Proof.Machine
end

