-- ==== Sys2Proof/Certificates/Slice0/Obligations.lean ====
section
/-! DEFINITION. The statements for the provers, from the rules of spec/. A docstring names the rule a statement comes from
and, where the rule is the spec's own decision D<n> (spec/92_eei_decisions.md) or inference, or the model's choice, says so. -/

open Sys2Proof Sys2Proof.Machine

/-! ## The ring (spec/40_fifo.md) -/

/-- R101. That the bytes kept are the leading ones is the spec's decision D6. -/
def Obligations.PutStoresLeadingBytesThatFit : Prop :=
  ∀ (s : State) (data : List Byte), ∃ t : State,
    let n := min data.length (s.cfg.ringCap - s.ring.count)
    exec (.put data) s = .next t ∧ t = { s with ring := t.ring, result := .count n } ∧
    t.ring.count = s.ring.count + n ∧ t.ring.wr = (s.ring.wr + n) % s.cfg.ringCap ∧ t.ring.rd = s.ring.rd ∧
    (∀ i < n, t.ring.mem.read ((s.ring.wr + i) % s.cfg.ringCap) = data[i]?) ∧
    ∀ a, (∀ i < n, a ≠ (s.ring.wr + i) % s.cfg.ringCap) → t.ring.mem.read a = s.ring.mem.read a

/-- R102: the bytes handed back, the ring after, that nothing else changes, and the code and format. -/
def Obligations.GetRemovesAndReturnsOldestBytes : Prop :=
  Opcode.get.code = 0x11#8 ∧ Opcode.get.format = .V ∧
  ∀ (s : State) (most : Nat), ∃ data : List Byte,
    let n := min most s.ring.count
    data.length = n ∧
    (∀ i < n, ∀ b, s.ring.mem.read ((s.ring.rd + i) % s.cfg.ringCap) = some b → data[i]? = some b) ∧
    exec (.get most) s = .next { s with
      ring := { s.ring with rd := (s.ring.rd + n) % s.cfg.ringCap, count := s.ring.count - n }
      result := .bytes data }

/-- R103: the result, that nothing else changes, when it is 0 and when the whole capacity, and the code and format. -/
def Obligations.SpaceReportsFreeBytes : Prop :=
  Opcode.space.code = 0x12#8 ∧ Opcode.space.format = .N ∧
  ∀ s : State, exec .space s = .next { s with result := .count (s.cfg.ringCap - s.ring.count) } ∧
    (s.RingInv → s.cfg.ringCap - s.ring.count ≤ s.cfg.ringCap ∧
      (s.cfg.ringCap - s.ring.count = 0 ↔ s.full = true) ∧
      (s.cfg.ringCap - s.ring.count = s.cfg.ringCap ↔ s.empty = true))

/-- R104: the result, its range, that nothing else changes, and the code and format. -/
def Obligations.UsedReportsQueuedBytes : Prop :=
  Opcode.used.code = 0x13#8 ∧ Opcode.used.format = .N ∧
  ∀ s : State, exec .used s = .next { s with result := .count s.ring.count } ∧
    (s.RingInv → s.ring.count ≤ s.cfg.ringCap)

/-- R105: the accounting identity through the results of USED and SPACE, the bounds of PUT's and GET's results with when
they are reached, the cursors' addition modulo the capacity, that no count leaves its range, and the one-byte ring. -/
def Obligations.RingAccountingIsExact : Prop :=
  ∀ s : State, s.RingInv →
    (∃ t u : State, ∃ used space : Nat, exec .used s = .next t ∧ t.result = .count used ∧
      exec .space s = .next u ∧ u.result = .count space ∧ used + space = s.cfg.ringCap ∧
      (∀ data, ∃ v : State, ∃ n, exec (.put data) s = .next v ∧ v.result = .count n ∧ n ≤ data.length ∧
        (n = data.length ↔ data.length ≤ space) ∧ v.ring.count = used + n ∧ v.ring.count ≤ s.cfg.ringCap ∧
        v.ring.wr = (s.ring.wr + n) % s.cfg.ringCap ∧ v.ring.wr < s.cfg.ringCap ∧ v.ring.rd = s.ring.rd) ∧
      ∀ most, ∃ v : State, ∃ data, exec (.get most) s = .next v ∧ v.result = .bytes data ∧ data.length ≤ most ∧
        (data.length = most ↔ most ≤ used) ∧ v.ring.count + data.length = used ∧
        v.ring.rd = (s.ring.rd + data.length) % s.cfg.ringCap ∧ v.ring.rd < s.cfg.ringCap ∧ v.ring.wr = s.ring.wr) ∧
    (s.cfg.ringCap = 1 → s.ring.wr = 0 ∧ s.ring.rd = 0)

/-- The FIFO law, R106, which the spec derives from R101, R102 and I3 of R27. -/
def Obligations.RingIsQueue : Prop :=
  ∀ s : State, s.RingInv →
    (∀ data, ∃ t : State, exec (.put data) s = .next t ∧ t.RingInv ∧
      t.content = s.content ++ data.take (min data.length (s.cfg.ringCap - s.content.length)) ∧
      t.result = .count (min data.length (s.cfg.ringCap - s.content.length))) ∧
    (∀ most, ∃ t : State, exec (.get most) s = .next t ∧ t.RingInv ∧
      t.content = s.content.drop most ∧ t.result = .bytes (s.content.take most)) ∧
    (∃ t : State, exec .space s = .next t ∧ t.result = .count (s.cfg.ringCap - s.content.length)) ∧
    ∃ t : State, exec .used s = .next t ∧ t.result = .count s.content.length

/-- The first testable property of the source (R106, E1 of spec/95_test_vectors.md): bytes put within the capacity of an
empty ring, in any number of calls, come back from one GET, in order. -/
def Obligations.PutsWithinCapacityComeBackInOrder : Prop :=
  ∀ (s : State) (pieces : List (List Byte)), s.RingInv → s.ring.count = 0 → pieces.flatten.length ≤ s.cfg.ringCap →
    ∃ t u : State, execAll (pieces.map .put) s = .next t ∧ exec (.get pieces.flatten.length) t = .next u ∧
      u.result = .bytes pieces.flatten ∧ u.ring.count = 0

/-- R81, derived by the spec from R101: a long byte sequence issued in consecutive pieces is accepted in the same total and
leaves the same ring, loss count and transmit enable, for PUT and for WTEXT. -/
def Obligations.PiecesOfDataActAsOne : Prop :=
  ∀ (s : State) (front back : List Byte),
    (∃ t u v : State, ∃ n m : Nat, exec (.put (front ++ back)) s = .next t ∧ t.result = .count (n + m) ∧
      exec (.put front) s = .next u ∧ u.result = .count n ∧ exec (.put back) u = .next v ∧ v.result = .count m ∧
      v = { t with result := .count m }) ∧
    ∃ t u v : State, ∃ n m : Nat, exec (.wtext (front ++ back)) s = .next t ∧ t.result = .count (n + m) ∧
      exec (.wtext front) s = .next u ∧ u.result = .count n ∧ exec (.wtext back) u = .next v ∧ v.result = .count m ∧
      v = { t with result := .count m, log := v.log }

/-- R107 and R23 to R26: which operations can write the ring's cells and write cursor, and which its read cursor. -/
def Obligations.RingHasOneProducerAndOneConsumer : Prop :=
  ∀ (i : Instr) (s t : State), exec i s = .next t →
    (i ≠ .txrdy → (∀ most, i ≠ .get most) → t.ring.rd = s.ring.rd ∧ s.ring.count ≤ t.ring.count) ∧
    (i = .txrdy ∨ (∃ most, i = .get most) → t.ring.wr = s.ring.wr ∧ t.ring.mem = s.ring.mem ∧
      t.ring.count ≤ s.ring.count) ∧
    (i = .space ∨ i = .used ∨ i = .tick ∨ (∃ c, i = .chen c) ∨ (∃ c, i = .chdis c) ∨ (∃ c p, i = .chper c p) ∨
      (∃ c v, i = .pinset c v) ∨ (∃ b, i = .feedOther b) → t.ring = s.ring)

/-! ## The bridge (spec/41_bridge.md) -/

/-- R121, the full case: no read, the two flags, and the notes and calls of the observer's record (log 9). -/
def Obligations.RxrdyOnFullRingSuspends : Prop :=
  ∀ s : State, s.cfg.ringCap - s.ring.count = 0 →
    exec .rxrdy s = .next { s with
      rxNotifyEn := false, throttle := true, result := .none
      log := s.log ++ [.disableRx, .note .capacityOverflow] }

/-- R121 and R122 with `SINK = LOOPBACK`: what is asked for, what is read, and that all of it is queued unchanged. The
count a read returns is the draw of R196 (log 5); when transmit notifications are enabled is decision D9. -/
def Obligations.RxrdyQueuesWhatItReadsInLoopback : Prop :=
  ∀ s : State, s.RingInv → s.cfg.sink = .loopback → s.cfg.ringCap - s.ring.count ≠ 0 →
    let asked := min (s.cfg.ringCap - s.ring.count) s.cfg.rxBurst
    let chunk := s.rxq.take (min s.draws.read asked)
    ∃ t u : State, exec .rxrdy s = .next t ∧ exec (.put chunk) s = .next u ∧ u.result = .count chunk.length ∧
      t = { s with
        ring := u.ring, rxq := s.rxq.drop chunk.length, txNotifyEn := s.txNotifyEn || !chunk.isEmpty
        result := .none, log := t.log } ∧
      t.content = s.content ++ chunk ∧ t.reads = s.reads ++ [(asked, chunk)]

/-- R121 and R122 with `SINK = CONSOLE`: the chunk is fed to the framer byte by byte, in order, as FEED would. -/
def Obligations.RxrdyFeedsEachByteInConsole : Prop :=
  ∀ s : State, s.cfg.sink = .console → s.cfg.ringCap - s.ring.count ≠ 0 →
    let asked := min (s.cfg.ringCap - s.ring.count) s.cfg.rxBurst
    let chunk := s.rxq.take (min s.draws.read asked)
    ∃ u : State,
      execAll (chunk.map feedInstr) { s with
        rxq := s.rxq.drop chunk.length
        log := s.log ++ .read asked chunk :: if chunk.length < asked then [.note .partialTransfer] else [] } = .next u ∧
      exec .rxrdy s = .next { u with result := .none }

/-- R127 P1: whatever an operation does, a read it makes asks for at least one byte and no more than the free space, and
gets no more than it asks for; RXRDY alone makes one, and takes exactly those bytes from the transport. -/
def Obligations.NoReadAsksForMoreThanSpace : Prop :=
  ∀ (i : Instr) (s t : State), s.cfg.wf → exec i s = .next t →
    (t.reads = s.reads ∧ t.rxq = s.rxq) ∨
    (i = .rxrdy ∧ ∃ asked got, t.reads = s.reads ++ [(asked, got)] ∧ 1 ≤ asked ∧
      asked ≤ s.cfg.ringCap - s.ring.count ∧ got.length ≤ asked ∧ s.rxq = got ++ t.rxq)

/-- R123 where nothing is queued: transmit notifications are disabled and nothing else happens. -/
def Obligations.TxrdyOnEmptyRingDisablesTransmit : Prop :=
  ∀ s : State, s.RingInv → s.ring.count = 0 →
    exec .txrdy s = .next { s with txNotifyEn := false, result := .none, log := s.log ++ [.disableTx] }

/-- R123 where something is queued. That the bytes a short write leaves are lost is decision D11, the order write before
resume D13; the count a write accepts is the draw of R197 (log 5). -/
def Obligations.TxrdySendsOldestBytesAndResumes : Prop :=
  ∀ s : State, s.cfg.wf → s.RingInv → 0 < s.ring.count →
    let out := s.content.take s.cfg.txBurst
    let j := min s.draws.write out.length
    ∃ t : State, exec .txrdy s = .next t ∧ t.content = s.content.drop s.cfg.txBurst ∧
      t = { s with
        ring := { s.ring with
          rd := (s.ring.rd + out.length) % s.cfg.ringCap, count := s.ring.count - out.length }
        txlog := s.txlog ++ out.take j
        txDrop := s.txDrop + (out.length - j)
        throttle := false
        rxNotifyEn := s.rxNotifyEn || s.throttle
        result := .none
        log := s.log ++ .write out j :: (if j < out.length then [.note .partialTransfer] else []) ++
          if s.throttle then [.enableRx] else [] }

/-- R125 and R124: WTEXT is PUT, the count of refused bytes, and the transmit enable (decision D9). -/
def Obligations.WtextQueuesAndCountsLoss : Prop :=
  ∀ (s : State) (data : List Byte),
    let w := min data.length (s.cfg.ringCap - s.ring.count)
    ∃ u : State, exec (.put data) s = .next u ∧
      exec (.wtext data) s = .next { s with
        ring := u.ring
        putDrop := s.putDrop + (data.length - w)
        txNotifyEn := s.txNotifyEn || decide (0 < w)
        result := .count w
        log := s.log ++ (if w < data.length then [.note .capacityOverflow] else []) ++
          if 0 < w then [.enableTx] else [] }

/-- R126: the throttle has two transitions and no others, over every operation. -/
def Obligations.ThrottleChangesOnlyByFullReceiveOrDrain : Prop :=
  ∀ (i : Instr) (s t : State), exec i s = .next t →
    (i = .rxrdy → (t.throttle = true ↔ s.throttle = true ∨ s.cfg.ringCap - s.ring.count = 0)) ∧
    (i = .txrdy → (t.throttle = true ↔ s.throttle = true ∧ min s.cfg.txBurst s.ring.count = 0)) ∧
    (i ≠ .rxrdy → i ≠ .txrdy → t.throttle = s.throttle) ∧
    (t.rxNotifyEn ≠ s.rxNotifyEn →
      (i = .rxrdy ∧ t.throttle = true ∧ t.rxNotifyEn = false) ∨
      (i = .txrdy ∧ s.throttle = true ∧ t.throttle = false ∧ t.rxNotifyEn = true))

/-- R31 and R126: a suspended bridge has a full ring and its transmit enable set, and any TXRDY resumes it. -/
def Obligations.SuspendedBridgeResumesOnDrain : Prop :=
  ∀ s : State, s.Inv → s.BridgeInv → s.throttle = true →
    s.txNotifyEn = true ∧ s.full = true ∧
    ∃ t : State, exec .txrdy s = .next t ∧ t.throttle = false ∧ t.rxNotifyEn = true ∧
      t.ring.count < s.cfg.ringCap

/-- R31: B1 to B3 are kept by every step of the machine except a test bench's bare PUT or GET. B2 rests on decision D9. -/
def Obligations.BridgeInvariantsKeptByEverySystemStep : Prop :=
  ∀ s t : State, s.Inv → s.BridgeInv →
    (∀ who bytes d rest i after, s.schedule = .record who bytes d :: rest → decode s.cfg bytes = .ok (i, after) →
      (∀ data, i ≠ .put data) ∧ ∀ most, i ≠ .get most) →
    step s = .next t → t.BridgeInv

/-- R127 P2 and R68, with `SINK = LOOPBACK`: over any run of events whose writes are not cut short, what has been sent,
what is queued and what waits in the transport, one after the other, are always the same bytes, and none is lost. -/
def Obligations.LoopbackKeepsEveryByteInOrder : Prop :=
  ∀ (s : State) (events : List (Instr × Draws)), s.Inv → s.cfg.sink = .loopback →
    (∀ e ∈ events, e.1 = .rxrdy ∨ (e.1 = .txrdy ∧ s.cfg.txBurst ≤ e.2.write)) →
    ∃ t : State, execTrace events s = .next t ∧ t.Inv ∧
      t.txlog ++ t.content ++ t.rxq = s.txlog ++ s.content ++ s.rxq ∧
      t.putDrop = s.putDrop ∧ t.txDrop = s.txDrop

/-! ## The framer and dispatcher (spec/42_framer.md) -/

/-- R144: a printable byte is stored and echoed, and neither where the line is full. -/
def Obligations.FeedPrintStoresAndEchoes : Prop :=
  ∀ (s : State) (b : Byte), s.cfg.sink = .console →
    (s.line.cursor < s.cfg.lineCap - 1 → ∃ line : LineBuffer, ∃ u : State,
      line.cursor = s.line.cursor + 1 ∧ line.buf.read s.line.cursor = some b ∧
      (∀ a, a ≠ s.line.cursor → line.buf.read a = s.line.buf.read a) ∧
      exec (.wtext [b]) { s with line := line } = .next u ∧
      exec (.feedPrint b) s = .next { u with result := .none }) ∧
    (¬s.line.cursor < s.cfg.lineCap - 1 →
      exec (.feedPrint b) s = .next { s with result := .none, log := s.log ++ [.note .capacityOverflow] })

/-- R143: both erase bytes step the cursor back and echo 08 20 08; on an empty line they do nothing. -/
def Obligations.FeedEraseStepsBackAndEchoes : Prop :=
  ∀ (s : State) (b : Byte), s.cfg.sink = .console →
    (0 < s.line.cursor → ∃ u : State,
      exec (.wtext [0x08#8, 0x20#8, 0x08#8]) { s with line := { s.line with cursor := s.line.cursor - 1 } } = .next u ∧
      exec (.feedErase b) s = .next { u with result := .none }) ∧
    (s.line.cursor = 0 → exec (.feedErase b) s = .next { s with result := .none })

/-- R145. -/
def Obligations.FeedOtherChangesNothing : Prop :=
  ∀ (s : State) (b : Byte), s.cfg.sink = .console → exec (.feedOther b) s = .next { s with result := .none }

/-- R142 on an empty line, for both settings of ECHO_EMPTY_TERM (conflict C3, decision D15): no dispatch. -/
def Obligations.FeedTermOnEmptyLineDispatchesNothing : Prop :=
  ∀ (s : State) (b : Byte), s.cfg.sink = .console → s.line.cursor = 0 →
    (s.cfg.echoEmptyTerm = true → ∃ u : State, exec (.wtext s.cfg.termEcho) s = .next u ∧
      exec (.feedTerm b) s = .next { u with result := .none }) ∧
    (s.cfg.echoEmptyTerm = false → exec (.feedTerm b) s = .next { s with result := .none }) ∧
    ∀ t, exec (.feedTerm b) s = .next t → t.dispatched = s.dispatched

/-- R142 on a line that holds `text`: DISPATCH, then the echo, then the cursor to 0. TERM_ECHO is decision D14. -/
def Obligations.FeedTermDispatchesThenEchoesThenClears : Prop :=
  ∀ (s : State) (b : Byte) (text : List Byte), s.cfg.sink = .console → 0 < s.line.cursor →
    text.length = s.line.cursor → (∀ i < text.length, s.line.buf.read i = text[i]?) →
    ∃ u v : State, exec (.dispatch text) s = .next u ∧ exec (.wtext s.cfg.termEcho) u = .next v ∧
      exec (.feedTerm b) s = .next { v with line := { s.line with cursor := 0 }, result := .none }

/-- R142, R144, R146 and E3 of spec/95_test_vectors.md: printable bytes typed on an empty line and then a terminator
dispatch exactly one command, made of the first LINE_CAP - 1 of them, and leave the line empty. -/
def Obligations.TypedLineIsDispatchedOnce : Prop :=
  ∀ (s : State) (text : List Byte) (b : Byte), s.Inv → s.cfg.sink = .console → s.line.cursor = 0 → text ≠ [] →
    (∀ c ∈ text, byteClass c = .print) →
    ∃ t : State, execAll (text.map .feedPrint ++ [.feedTerm b]) s = .next t ∧ t.line.cursor = 0 ∧
      t.dispatched = s.dispatched ++
        [(tokenOf (text.take (s.cfg.lineCap - 1)), argsOf (text.take (s.cfg.lineCap - 1)))]

/-- R147 and R149: where no entry's folded name is the folded token, DISPATCH queues UNKNOWN_MSG and does nothing else. -/
def Obligations.UnknownCommandQueuesDiagnostic : Prop :=
  ∀ (s : State) (line : List Byte), s.cfg.sink = .console →
    (∀ e ∈ s.cfg.cmdTable, fold e.name ≠ fold (tokenOf line)) →
    ∃ u : State,
      exec (.wtext s.cfg.unknownMsg) { s with
        log := s.log ++ [.dispatch (tokenOf line) (argsOf line), .note .unknownCommand] } = .next u ∧
      exec (.dispatch line) s = .next { u with result := .none }

/-- R147, R148 and R150: the first entry that matches (decision D16) has its handler called on the arguments, and the call
is the handler's operations, in order, each with the effect it has by itself. How a handler is written down is log 4;
that a refused command of a handler is passed over is log 16. -/
def Obligations.FirstMatchingHandlerRunsItsOperations : Prop :=
  ∀ (s : State) (line : List Byte) (before after : List CommandEntry) (e : CommandEntry), s.cfg.sink = .console →
    s.cfg.cmdTable = before ++ e :: after → fold e.name = fold (tokenOf line) →
    (∀ x ∈ before, fold x.name ≠ fold (tokenOf line)) →
    exec (.dispatch line) s = .next { handlerByExec (e.handler.progFor (argsOf line)) 0
      { s with log := s.log ++ [.dispatch (tokenOf line) (argsOf line)] } with result := .none }

/-- R147: how a line splits. Blanks, the token, blanks, the arguments; decision D16 skips the leading blanks. -/
def Obligations.LineSplitsIntoTokenAndArguments : Prop :=
  ∀ line : List Byte, ∃ lead gap : List Byte, line = lead ++ tokenOf line ++ gap ++ argsOf line ∧
    (∀ b ∈ lead, b = 0x20#8) ∧ (∀ b ∈ gap, b = 0x20#8) ∧ (∀ b ∈ tokenOf line, b ≠ 0x20#8) ∧
    (argsOf line).head? ≠ some 0x20#8 ∧ (argsOf line ≠ [] → gap ≠ [] ∧ tokenOf line ≠ []) ∧
    (tokenOf line = [] ↔ ∀ b ∈ line, b = 0x20#8)

/-- R148: whole names, case folded (ASCII, which the spec takes from general knowledge), first match in table order. -/
def Obligations.LookupIsFirstCaseInsensitiveMatch : Prop :=
  (∀ b : Byte, foldByte b = if 0x41#8 ≤ b ∧ b ≤ 0x5A#8 then b + 0x20#8 else b) ∧
  (∀ (table : List CommandEntry) (token : List Byte), findEntry table token = findEntry table (fold token)) ∧
  (∀ (table : List CommandEntry) (token : List Byte) (e : CommandEntry), findEntry table token = some e ↔
    ∃ before after, table = before ++ e :: after ∧ fold e.name = fold token ∧
      ∀ x ∈ before, fold x.name ≠ fold token) ∧
  ∀ table : List CommandEntry, tableOk table = true → findEntry table [] = none

/-- R150, R151 and R126: what no operation of the framer, the dispatcher or a handler touches. -/
def Obligations.ConsoleLeavesThrottleAndTransportAlone : Prop :=
  ∀ (i : Instr) (s t : State), i.opcode = .feed ∨ i.opcode = .dispatch ∨ i.opcode = .wtext → exec i s = .next t →
    t.cfg = s.cfg ∧ t.ring.rd = s.ring.rd ∧ t.throttle = s.throttle ∧ t.rxNotifyEn = s.rxNotifyEn ∧
    t.txDrop = s.txDrop ∧ t.rxq = s.rxq ∧ t.txlog = s.txlog ∧ t.booted = s.booted ∧ t.epoch = s.epoch ∧
    t.schedule = s.schedule ∧ (i.opcode ≠ .feed → t.line = s.line) ∧
    (s.txNotifyEn = true → t.txNotifyEn = true) ∧ s.putDrop ≤ t.putDrop

/-- R33 and R87: without a console there is no framer, so FEED and DISPATCH are refused (log 11). -/
def Obligations.FramerIsAbsentInLoopback : Prop :=
  ∀ (i : Instr) (s : State), s.cfg.sink = .loopback → i.opcode = .feed ∨ i.opcode = .dispatch →
    exec i s = .refused .framerAbsent

/-! ## The sequencer (spec/43_blink.md) -/

/-- R161, channel by channel: who toggles, and that nobody else and nothing else changes. That period 0 never toggles is the
spec's inference from the source (conflict C2); one clock reading a tick is decision D18. -/
def Obligations.TickTogglesExactlyTheDueChannels : Prop :=
  ∀ s : State, s.ChanInv → ∃ t : State, exec .tick s = .next t ∧
    t = { s with
      ch := t.ch, pinOut := t.pinOut, clock := s.clock + s.draws.clock.headD 0
      draws := { s.draws with clock := s.draws.clock.tail }, result := .none, log := t.log } ∧
    t.ch.length = s.ch.length ∧ t.pinOut.length = s.pinOut.length ∧
    ∀ (i : Nat) (c : BlinkChannel), s.ch[i]? = some c →
      if c.enabled = true ∧ c.periodMs ≠ 0 ∧ c.periodMs ≤ elapsed s.cfg.tsW s.now c.lastToggle then
        t.ch[i]? = some { c with state := !c.state, lastToggle := s.now } ∧ t.pinOut[i]? = some (!c.state)
      else t.ch[i]? = some c ∧ t.pinOut[i]? = s.pinOut[i]?

/-- R161 and R92: the calls of one TICK, in order: one clock reading, then a `set_level` for each channel that toggles, in
ascending order (decision D19). -/
def Obligations.TickCallsSetLevelInAscendingOrder : Prop :=
  ∀ s t : State, s.ChanInv → exec .tick s = .next t →
    t.log = s.log ++ .now s.now ::
      ((List.range s.cfg.nCh).filter fun i => s.due s.now i).map fun i => .setLevel i !(s.chan i).state

/-- R168 (decision D17): while less than 2^TS_W ms have passed since a channel's last toggle, TICK compares the true elapsed
time with the period, though the clock has wrapped in between. Times are whole milliseconds; `last` and the clock's value
are their low TS_W bits. -/
def Obligations.TickMeasuresTrueElapsedTimeAcrossWrap : Prop :=
  ∀ (s : State) (i last : Nat) (c : BlinkChannel), s.ChanInv → s.ch[i]? = some c → c.enabled = true → c.periodMs ≠ 0 →
    c.lastToggle = last % 2 ^ s.cfg.tsW → last ≤ s.clock + s.draws.clock.headD 0 →
    s.clock + s.draws.clock.headD 0 < last + 2 ^ s.cfg.tsW →
    ∃ t : State, exec .tick s = .next t ∧
      ((t.chan i).state = !c.state ↔ c.periodMs ≤ s.clock + s.draws.clock.headD 0 - last)

/-- R162 (decision D20). -/
def Obligations.ChenEnablesAndRestartsInterval : Prop :=
  ∀ (s : State) (i : Nat) (c : BlinkChannel), i < s.cfg.nCh → s.ch[i]? = some c →
    exec (.chen i) s = .next { s with
      ch := s.ch.set i { c with lastToggle := (s.clock + s.draws.clock.headD 0) % 2 ^ s.cfg.tsW, enabled := true }
      clock := s.clock + s.draws.clock.headD 0
      draws := { s.draws with clock := s.draws.clock.tail }
      result := .none
      log := s.log ++ [.now ((s.clock + s.draws.clock.headD 0) % 2 ^ s.cfg.tsW)] }

/-- R163. -/
def Obligations.ChdisClearsEnabledOnly : Prop :=
  ∀ (s : State) (i : Nat) (c : BlinkChannel), i < s.cfg.nCh → s.ch[i]? = some c →
    exec (.chdis i) s = .next { s with ch := s.ch.set i { c with enabled := false }, result := .none }

/-- R164 (decision D20). -/
def Obligations.ChperStoresPeriodOnly : Prop :=
  ∀ (s : State) (i p : Nat) (c : BlinkChannel), i < s.cfg.nCh → p < 2 ^ s.cfg.tsW → p ≠ 0 → s.ch[i]? = some c →
    exec (.chper i p) s = .next { s with ch := s.ch.set i { c with periodMs := p }, result := .none }

/-- R165, steady on (decision D20 puts the four writes in the one command). -/
def Obligations.ChperZeroIsSteadyOn : Prop :=
  ∀ (s : State) (i : Nat) (c : BlinkChannel), i < s.cfg.nCh → s.ch[i]? = some c →
    exec (.chper i 0) s = .next { s with
      ch := s.ch.set i { c with periodMs := 0, state := true, enabled := false }
      pinOut := s.pinOut.set i true
      result := .none
      log := s.log ++ [.setLevel i true] }

/-- R166 (decision D21 keeps `state` with the pin). -/
def Obligations.PinsetDrivesPinAndState : Prop :=
  ∀ (s : State) (i : Nat) (v : Bool) (c : BlinkChannel), i < s.cfg.nCh → s.ch[i]? = some c →
    exec (.pinset i v) s = .next { s with
      ch := s.ch.set i { c with state := v }
      pinOut := s.pinOut.set i v
      result := .none
      log := s.log ++ [.setLevel i v] }

/-- R171 and R83 (decision D24), and R168 and R80: a period too wide to store is refused, whatever the channel. -/
def Obligations.CommandOnMissingChannelIsRefused : Prop :=
  ∀ (s : State) (i p : Nat) (v : Bool),
    (s.cfg.nCh ≤ i →
      exec (.chen i) s = .refused (.channelOutOfRange i) ∧ exec (.chdis i) s = .refused (.channelOutOfRange i) ∧
      exec (.pinset i v) s = .refused (.channelOutOfRange i) ∧
      (p < 2 ^ s.cfg.tsW → exec (.chper i p) s = .refused (.channelOutOfRange i))) ∧
    (2 ^ s.cfg.tsW ≤ p → exec (.chper i p) s = .refused (.valueTooWide p))

/-- R165, R167 and E7 of spec/95_test_vectors.md: while the mux does not select the sequencer, because a channel is disabled
or its period is 0, no number of TICKs touches its record or its pin. -/
def Obligations.UnselectedChannelOutlastsAnyTicks : Prop :=
  ∀ (s : State) (i : Nat) (ticks : List Draws), s.ChanInv → s.muxSelect i = false →
    ∃ t : State, execTrace (ticks.map fun d => (.tick, d)) s = .next t ∧ t.ch[i]? = s.ch[i]? ∧
      t.pinOut[i]? = s.pinOut[i]? ∧ t.ch.length = s.ch.length

/-- R160, R167, R194 and R195: the operations that cannot touch a channel record or a pin, and that TICK and the channel
commands touch nothing of the event context's. -/
def Obligations.ContextsShareOnlyTheChannels : Prop :=
  ∀ (i : Instr) (s t : State), exec i s = .next t →
    (i.opcode = .put ∨ i.opcode = .get ∨ i.opcode = .space ∨ i.opcode = .used ∨ i.opcode = .txrdy ∨
      i.opcode = .wtext ∨ (∃ b, i = .feedErase b) ∨ (∃ b, i = .feedPrint b) ∨ (∃ b, i = .feedOther b) ∨
      (i = .rxrdy ∧ s.cfg.sink = .loopback) → t.ch = s.ch ∧ t.pinOut = s.pinOut) ∧
    (i.opcode = .tick ∨ i.opcode = .chen ∨ i.opcode = .chdis ∨ i.opcode = .chper ∨ i.opcode = .pinset →
      t = { s with ch := t.ch, pinOut := t.pinOut, clock := t.clock, draws := t.draws, result := .none, log := t.log })

/-! ## The whole machine -/

/-- R40, R199 and R32: no operation writes the parameters, turns the clock back, or lowers a loss counter. -/
def Obligations.NoOperationWritesParametersOrTurnsClockBack : Prop :=
  ∀ (i : Instr) (s t : State), exec i s = .next t →
    t.cfg = s.cfg ∧ s.clock ≤ t.clock ∧ s.putDrop ≤ t.putDrop ∧ s.txDrop ≤ t.txDrop ∧ t.booted = s.booted ∧
    t.calling = s.calling ∧ t.epoch = s.epoch ∧ t.schedule = s.schedule ∧ s.log <+: t.log

/-- R44: the values the spec gives the elements at reset (decision D22), and the collaborators as R222 takes them. The
clock's value and the parameters left OPEN are the model's (log 2, 3, 8) and are not stated. -/
def Obligations.ResetLeavesValuesOfR44 : Prop :=
  let s := State.reset
  s.ring.count = 0 ∧ s.ring.wr = 0 ∧ s.ring.rd = 0 ∧ (∀ a, s.ring.mem.read a = none) ∧ s.throttle = false ∧
  s.rxNotifyEn = false ∧ s.txNotifyEn = false ∧ s.putDrop = 0 ∧ s.txDrop = 0 ∧ s.line.cursor = 0 ∧
  (∀ a, s.line.buf.read a = none) ∧ s.ch.length = s.cfg.nCh ∧ s.pinOut.length = s.cfg.nCh ∧
  (∀ i < s.cfg.nCh, s.ch[i]? = some { enabled := false, periodMs := 0, lastToggle := 0, state := false } ∧
    s.pinOut[i]? = some false) ∧ s.rxq = [] ∧ s.txlog = []

/-- The invariants hold at reset (R27, R31, R33, R39). -/
def Obligations.ResetMeetsTheInvariants : Prop := State.reset.Inv ∧ State.reset.BridgeInv

/-- R27, R33, R35, R36 and R39: the invariants of the ring, the line and the channels are kept by every step, from every
state that meets them, whatever the environment does next. -/
def Obligations.InvariantsKeptByEveryStep : Prop :=
  ∀ s t : State, s.Inv → step s = .next t → t.Inv

/-- R83, R87, R187 to R190, R200, R231: a step runs the instruction its record decodes to, with its draws, when its issuer may
issue it, a call inside an event runs inside its call and anything else outside one (log 29), BOOT is over (or the issuer is a
test bench, log 10) and its notification is enabled; the record leaves the trace, the call returns, and nothing else happens
around it. -/
def Obligations.StepRunsTheDecodedInstruction : Prop :=
  ∀ (s : State) (who : Issuer) (bytes after : List Byte) (d : Draws) (rest : List TraceItem) (i : Instr),
    s.schedule = .record who bytes d :: rest → decode s.cfg bytes = .ok (i, after) → mayIssue who i = true →
    s.calling = who.call → (who = .bench ∨ s.booted = true) → (i = .rxrdy → s.rxNotifyEn = true) →
    (i = .txrdy → s.txNotifyEn = true) → step s = exec i { s with schedule := rest, draws := d, calling := none }

/-- R83, R87, R187, R188, R192, R200, R226, R230 and R231: the deliveries that have no step. -/
def Obligations.DeliveryOutsideTheRulesIsRefused : Prop :=
  ∀ (s : State) (who : Issuer) (bytes : List Byte) (d : Draws) (rest : List TraceItem),
    s.schedule = .record who bytes d :: rest →
    (∀ e, decode s.cfg bytes = .error e → step s = .refused (.badRecord e)) ∧
    ∀ i after, decode s.cfg bytes = .ok (i, after) →
      (mayIssue who i = false → step s = .refused (.issuerNotAllowed who)) ∧
      (mayIssue who i = true → s.calling ≠ who.call → step s = .refused (.outsideItsCall who)) ∧
      (mayIssue who i = true → s.calling = who.call → who ≠ .bench → s.booted = false →
        step s = .refused .notBooted) ∧
      (mayIssue who i = true → s.calling = who.call → s.booted = true → i = .rxrdy → s.rxNotifyEn = false →
        step s = .refused .notificationDisabled) ∧
      (mayIssue who i = true → s.calling = who.call → s.booted = true → i = .txrdy → s.txNotifyEn = false →
        step s = .refused .notificationDisabled)

/-- R87 and R194: the table of R87 row by row, who may issue an operation and from which context. That a test bench issues
the operations of the FIFO is R87's; that it issues those of the sequencer is log 10 (from R92 and P4). -/
def Obligations.IssuersAndContextsFollowTheTable : Prop :=
  ∀ (who : Issuer) (i : Instr),
    (i.opcode = .put ∨ i.opcode = .get ∨ i.opcode = .space → (mayIssue who i = true ↔ who = .bridge ∨ who = .bench)) ∧
    (i.opcode = .used → (mayIssue who i = true ↔ who = .bench)) ∧
    (i.opcode = .rxrdy ∨ i.opcode = .txrdy → (mayIssue who i = true ↔ who = .transport)) ∧
    (i.opcode = .wtext → (mayIssue who i = true ↔ who = .handler ∨ who = .dispatcher ∨ who = .framer)) ∧
    (i.opcode = .feed → (mayIssue who i = true ↔ who = .bridge)) ∧
    (i.opcode = .dispatch → (mayIssue who i = true ↔ who = .framer)) ∧
    (i.opcode = .tick → (mayIssue who i = true ↔ who = .timer ∨ who = .bench)) ∧
    (i.opcode = .chen ∨ i.opcode = .chdis ∨ i.opcode = .chper ∨ i.opcode = .pinset →
      (mayIssue who i = true ↔ who = .handler ∨ who = .bench)) ∧
    (contextOf i = .task ↔ i.opcode = .tick) ∧ (mayIssue who i = true → issuerContext who i = contextOf i)

/-- R220 to R222, R226, R227 and R91: RESET gives the reset state from any state, BOOT then gives the launch state, which
meets the invariants; and from any state ARRIVE appends to the transport's queue and does nothing else. What RESET keeps is
log 21. -/
def Obligations.ResetThenBootGivesLaunchState : Prop :=
  (∀ (s : State) (table : List CommandEntry) (msg : List Byte) (rest : List TraceItem), s.cfg.wf →
    tableOk table = true → s.schedule = .reset :: .boot table msg :: rest →
    ∃ r l : State, step s = .next r ∧
      r = { State.resetOf s.cfg with
        clock := s.clock, draws := s.draws, epoch := s.epoch + 1, schedule := .boot table msg :: rest, log := s.log } ∧
      step r = .next l ∧
      l = { r with
        cfg := { s.cfg with cmdTable := table, unknownMsg := msg }, rxNotifyEn := true, booted := true
        schedule := rest, log := s.log ++ [.enableRx] } ∧ l.Inv ∧ l.BridgeInv) ∧
  ∀ (s : State) (data : List Byte) (rest : List TraceItem), s.schedule = .arrive data :: rest →
    step s = .next { s with schedule := rest, rxq := s.rxq ++ data }

/-! ## Records (spec/30_encoding.md) -/

/-- R80 to R82: what is encoded is read back, every operand at every value its field holds, whatever follows the record. -/
def Obligations.DecodeUndoesEncode : Prop :=
  ∀ (p : Params) (i : Instr) (after : List Byte), p.wf → i.wf p = true → decode p (encode p i ++ after) = .ok (i, after)

/-- R80 to R84: a record that decodes is the one record of a well-formed instruction: no bit of it is ignored. -/
def Obligations.DecodedRecordIsTheEncoding : Prop :=
  ∀ (p : Params) (bytes after : List Byte) (i : Instr), p.wf → decode p bytes = .ok (i, after) →
    i.wf p = true ∧ bytes = encode p i ++ after

/-- R82 and R83: the code and the format of each operation, no two codes alike, and every other code refused. -/
def Obligations.OnlyTheFourteenCodesDecode : Prop :=
  Opcode.all.map (fun o => (o.code, o.format)) =
    [(0x10#8, .D), (0x11#8, .V), (0x12#8, .N), (0x13#8, .N), (0x20#8, .N), (0x21#8, .N), (0x22#8, .D), (0x30#8, .B),
      (0x31#8, .D), (0x40#8, .N), (0x41#8, .C), (0x42#8, .C), (0x43#8, .CV), (0x44#8, .CV)] ∧
  Opcode.all =
    [.put, .get, .space, .used, .rxrdy, .txrdy, .wtext, .feed, .dispatch, .tick, .chen, .chdis, .chper, .pinset] ∧
  (∀ o o' : Opcode, o.code = o'.code → o = o') ∧
  ∀ (p : Params) (op ch hi lo : Byte) (body : List Byte), (∀ o : Opcode, o.code ≠ op) →
    decode p (op :: ch :: hi :: lo :: body) = .error (.reservedOp op)

/-- R80 and R83: records refused for a field, by format, the bits of `val` above `val[7:0]` for FEED and above `val[0]` for PINSET
among them. That a bit of the `val` bytes above its TS_W bits is refused is log 13. -/
def Obligations.MalformedRecordsAreRefused : Prop :=
  ∀ (p : Params) (o : Opcode) (ch hi lo : Byte) (body : List Byte),
    (o.format ≠ .C → o.format ≠ .CV → ch ≠ 0#8 → decode p (o.code :: ch :: hi :: lo :: body) = .error .mustBeZero) ∧
    (o.format ≠ .D → hi ≠ 0#8 ∨ lo ≠ 0#8 → decode p (o.code :: ch :: hi :: lo :: body) = .error .mustBeZero) ∧
    (o.format = .C ∨ o.format = .CV → p.nCh ≤ ch.toNat →
      decode p (o.code :: ch :: 0#8 :: 0#8 :: body) = .error (.channelOutOfRange ch.toNat)) ∧
    (o.format = .D → body.length < hi.toNat * 256 + lo.toNat →
      decode p (o.code :: 0#8 :: hi :: lo :: body) = .error .truncatedData) ∧
    (o.format = .V ∨ o.format = .B → body.length < valBytes p →
      decode p (o.code :: 0#8 :: 0#8 :: 0#8 :: body) = .error .truncatedVal) ∧
    (o.format = .CV → ch.toNat < p.nCh → body.length < valBytes p →
      decode p (o.code :: ch :: 0#8 :: 0#8 :: body) = .error .truncatedVal) ∧
    ∀ (v : Nat) (rest : List Byte), v < 256 ^ valBytes p →
      (2 ^ 8 ≤ v → v < 2 ^ p.tsW →
        decode p ([Opcode.feed.code, 0#8, 0#8, 0#8] ++ natBE (valBytes p) v ++ rest) = .error .mustBeZero) ∧
      (2 ≤ v → v < 2 ^ p.tsW → ch.toNat < p.nCh →
        decode p ([Opcode.pinset.code, ch, 0#8, 0#8] ++ natBE (valBytes p) v ++ rest) = .error .mustBeZero) ∧
      (2 ^ p.tsW ≤ v → o.format = .V ∨ o.format = .B →
        decode p ([o.code, 0#8, 0#8, 0#8] ++ natBE (valBytes p) v ++ rest) = .error .valTooWide) ∧
      (2 ^ p.tsW ≤ v → o.format = .CV → ch.toNat < p.nCh →
        decode p ([o.code, ch, 0#8, 0#8] ++ natBE (valBytes p) v ++ rest) = .error .valTooWide)

/-- R141 and R85: the four classes, byte for byte (ASCII, which the spec takes from general knowledge), and the row of the
table a FEED record's byte selects. -/
def Obligations.FeedByteSelectsItsRow : Prop :=
  (∀ b : Byte, (byteClass b = .term ↔ b = 0x0D#8 ∨ b = 0x0A#8) ∧ (byteClass b = .erase ↔ b = 0x08#8 ∨ b = 0x7F#8) ∧
    (byteClass b = .print ↔ 0x20#8 ≤ b ∧ b ≤ 0x7E#8)) ∧
  ∀ (p : Params) (b : Byte), 8 ≤ p.tsW →
    decode p ([0x30#8, 0x00#8, 0x00#8, 0x00#8] ++ natBE (valBytes p) b.toNat) =
      .ok (match byteClass b with
        | .term => .feedTerm b
        | .erase => .feedErase b
        | .print => .feedPrint b
        | .other => .feedOther b, [])

/-- The nineteen records of the table in spec/95_test_vectors.md, decoded: every row of the opcode table. -/
def Obligations.RecordsOfTheSpecDecode : Prop :=
  decode .default [0x10#8, 0x00#8, 0x00#8, 0x03#8, 0x41#8, 0x42#8, 0x43#8] = .ok (.put [0x41#8, 0x42#8, 0x43#8], []) ∧
  decode .default [0x10#8, 0x00#8, 0x00#8, 0x00#8] = .ok (.put [], []) ∧
  decode .default [0x11#8, 0x00#8, 0x00#8, 0x00#8, 0x00#8, 0x00#8, 0x00#8, 0x02#8] =
    .ok (.get 2, []) ∧
  decode .default [0x12#8, 0x00#8, 0x00#8, 0x00#8] = .ok (.space, []) ∧
  decode .default [0x13#8, 0x00#8, 0x00#8, 0x00#8] = .ok (.used, []) ∧
  decode .default [0x20#8, 0x00#8, 0x00#8, 0x00#8] = .ok (.rxrdy, []) ∧
  decode .default [0x21#8, 0x00#8, 0x00#8, 0x00#8] = .ok (.txrdy, []) ∧
  decode .default [0x22#8, 0x00#8, 0x00#8, 0x02#8, 0x4F#8, 0x4B#8] = .ok (.wtext [0x4F#8, 0x4B#8], []) ∧
  decode .default [0x30#8, 0x00#8, 0x00#8, 0x00#8, 0x00#8, 0x00#8, 0x00#8, 0x0D#8] =
    .ok (.feedTerm 0x0D#8, []) ∧
  decode .default [0x30#8, 0x00#8, 0x00#8, 0x00#8, 0x00#8, 0x00#8, 0x00#8, 0x7F#8] =
    .ok (.feedErase 0x7F#8, []) ∧
  decode .default [0x30#8, 0x00#8, 0x00#8, 0x00#8, 0x00#8, 0x00#8, 0x00#8, 0x41#8] =
    .ok (.feedPrint 0x41#8, []) ∧
  decode .default [0x30#8, 0x00#8, 0x00#8, 0x00#8, 0x00#8, 0x00#8, 0x00#8, 0x1B#8] =
    .ok (.feedOther 0x1B#8, []) ∧
  decode .default [0x31#8, 0x00#8, 0x00#8, 0x08#8, 0x4C#8, 0x45#8, 0x44#8, 0x20#8, 0x31#8, 0x20#8, 0x4F#8, 0x4E#8] =
    .ok (.dispatch [0x4C#8, 0x45#8, 0x44#8, 0x20#8, 0x31#8, 0x20#8, 0x4F#8, 0x4E#8], []) ∧
  decode .default [0x40#8, 0x00#8, 0x00#8, 0x00#8] = .ok (.tick, []) ∧
  decode .default [0x41#8, 0x00#8, 0x00#8, 0x00#8] = .ok (.chen 0, []) ∧
  decode .default [0x42#8, 0x03#8, 0x00#8, 0x00#8] = .ok (.chdis 3, []) ∧
  decode .default [0x43#8, 0x00#8, 0x00#8, 0x00#8, 0x00#8, 0x00#8, 0x00#8, 0xC8#8] =
    .ok (.chper 0 200, []) ∧
  decode .default [0x43#8, 0x01#8, 0x00#8, 0x00#8, 0x00#8, 0x00#8, 0x00#8, 0x00#8] =
    .ok (.chper 1 0, []) ∧
  decode .default [0x44#8, 0x01#8, 0x00#8, 0x00#8, 0x00#8, 0x00#8, 0x00#8, 0x01#8] =
    .ok (.pinset 1 true, [])

/-! ## Steps and BOOT -/

/-- R67, R92, R186, R192 and R194: with no call running, a step is one whole event of the transport, one whole TICK, an operation
of the FIFO or the sequencer that a test bench issues (log 10), an environment step, or nothing, and no call is running after
it. So it is in every run from State.reset. -/
def Obligations.StepsAreWholeEventsAndTicks : Prop :=
  State.reset.calling = none ∧ ∀ s t : State, s.calling = none → step s = .next t → t.calling = none ∧
    ((s.schedule = [] ∧ t = s) ∨ (∃ rest, s.schedule = .reset :: rest) ∨
      (∃ table msg rest, s.schedule = .boot table msg :: rest) ∨ (∃ data rest, s.schedule = .arrive data :: rest) ∨
      ∃ who bytes d rest i after, s.schedule = .record who bytes d :: rest ∧ decode s.cfg bytes = .ok (i, after) ∧
        exec i { s with schedule := rest, draws := d } = .next t ∧
        ((who = .transport ∧ s.booted = true ∧
            ((i = .rxrdy ∧ s.rxNotifyEn = true) ∨ (i = .txrdy ∧ s.txNotifyEn = true))) ∨
          (who = .timer ∧ s.booted = true ∧ i = .tick) ∨
          (who = .bench ∧ (i.opcode = .put ∨ i.opcode = .get ∨ i.opcode = .space ∨ i.opcode = .used ∨ i.opcode = .tick ∨
            i.opcode = .chen ∨ i.opcode = .chdis ∨ i.opcode = .chper ∨ i.opcode = .pinset))))

/-- R226 (decision D23): BOOT supplies table and message and enables receive notifications, from a state whose elements are at
their reset values (the cells of the arrays are open, R44), once; otherwise it has no step, as it has none with a table R7
forbids (log 19). -/
def Obligations.BootRunsOnceFromTheResetState : Prop :=
  ∀ (s : State) (table : List CommandEntry) (msg : List Byte) (rest : List TraceItem),
    s.schedule = .boot table msg :: rest →
    let atReset : Prop := s = { s with
      ring := { mem := s.ring.mem, wr := 0, rd := 0, count := 0 }, throttle := false, rxNotifyEn := false
      txNotifyEn := false, putDrop := 0, txDrop := 0, line := { buf := s.line.buf, cursor := 0 }
      ch := List.replicate s.cfg.nCh { enabled := false, periodMs := 0, lastToggle := 0, state := false }
      pinOut := List.replicate s.cfg.nCh false, calling := none }
    (s.booted = true → step s = .refused .alreadyBooted) ∧
    (s.booted = false → ¬atReset → step s = .refused .notAtReset) ∧
    (s.booted = false → atReset → tableOk table = false → step s = .refused .badCommandTable) ∧
    (s.booted = false → atReset → tableOk table = true → step s = .next { s with
      cfg := { s.cfg with cmdTable := table, unknownMsg := msg }, rxNotifyEn := true, booted := true
      schedule := rest, log := s.log ++ [.enableRx] })
end

