-- ==== Sys2Proof/Laws/Memory.lean ====
section
/-! SUPPORT. The laws of the byte arrays (spec/20_memory.md R62, R64): a read after a write to the same cell gives the value
written, a write leaves every other cell alone, and every operation keeps the canonical form. -/

namespace Sys2Proof.Machine

@[simp] theorem Memory.read_nil (a : Nat) : Memory.read [] a = none := rfl

@[simp] theorem Memory.read_write_same (m : Memory) (a : Nat) (b : Byte) : (m.write a b).read a = some b := by
  induction m with
  | nil => simp [Memory.write, Memory.read]
  | cons c m ih =>
    obtain ⟨k, v⟩ := c
    simp only [Memory.write]
    split
    · simp [Memory.read]
    · split
      · simp [Memory.read]
      · simp [Memory.read, ih, Ne.symm ‹¬a = k›]

theorem Memory.read_write_other (m : Memory) {a c : Nat} (b : Byte) (h : c ≠ a) :
    (m.write a b).read c = m.read c := by
  induction m with
  | nil => simp [Memory.write, Memory.read, h.symm]
  | cons x m ih =>
    obtain ⟨k, v⟩ := x
    simp only [Memory.write]
    split
    · simp [Memory.read, h.symm]
    · split
      · subst_vars; simp [Memory.read, h.symm]
      · simp [Memory.read, ih]

/-- A write lists no cell but the one it stores to. -/
theorem Memory.mem_write {m : Memory} {a : Nat} {b : Byte} {c : Host.Cell} (h : c ∈ m.write a b) :
    c = (a, b) ∨ c ∈ m := by
  induction m with
  | nil => simpa [Memory.write] using h
  | cons x m ih =>
    obtain ⟨k, v⟩ := x
    simp only [Memory.write] at h
    split at h
    · simpa using h
    · split at h <;> simp only [List.mem_cons] at h ⊢
      · tauto
      · rcases h with h | h
        · tauto
        · rcases ih h with h | h <;> tauto

/-- A write keeps the canonical form. -/
theorem Memory.wf_write {m : Memory} (h : m.wf) (a : Nat) (b : Byte) : (m.write a b).wf := by
  induction m with
  | nil => simp [Memory.write]
  | cons x m ih =>
    obtain ⟨k, v⟩ := x
    obtain ⟨hk, hm⟩ := List.pairwise_cons.mp h
    simp only [Memory.write]
    split
    · refine List.pairwise_cons.mpr ⟨fun c hc => ?_, h⟩
      rcases List.mem_cons.mp hc with rfl | hc
      · assumption
      · exact lt_trans ‹a < k› (hk c hc)
    · split
      · subst_vars; exact List.pairwise_cons.mpr ⟨hk, hm⟩
      · refine List.pairwise_cons.mpr ⟨fun c hc => ?_, ih hm⟩
        rcases Memory.mem_write hc with rfl | hc
        · show k < a; omega
        · exact hk c hc

/-- A run of writes keeps the canonical form. -/
theorem Memory.wf_writeRun {m : Memory} (h : m.wf) (cap pos : Nat) (bs : List Byte) : (m.writeRun cap pos bs).wf := by
  induction bs generalizing m pos with
  | nil => exact h
  | cons b bs ih => exact ih (Memory.wf_write h _ b) _

/-- A run of writes lists no cell outside the array. -/
theorem Memory.writeRun_lt {m : Memory} {cap : Nat} (hc : 0 < cap) (h : ∀ c ∈ m, c.1 < cap) (pos : Nat)
    (bs : List Byte) : ∀ c ∈ m.writeRun cap pos bs, c.1 < cap := by
  induction bs generalizing m pos with
  | nil => exact h
  | cons b bs ih =>
    refine ih (fun c hm => ?_) _
    rcases Memory.mem_write hm with rfl | hm
    · exact Nat.mod_lt _ hc
    · exact h c hm

/-- A run of writes leaves every other cell alone (R64). -/
theorem Memory.read_writeRun_other (m : Memory) (cap pos : Nat) (bs : List Byte) (a : Nat)
    (h : ∀ i < bs.length, a ≠ (pos + i) % cap) : (m.writeRun cap pos bs).read a = m.read a := by
  induction bs generalizing m pos with
  | nil => rfl
  | cons b bs ih =>
    rw [Memory.writeRun, ih, Memory.read_write_other]
    · simpa using h 0 (by simp)
    · intro i hi
      have := h (i + 1) (by simpa using hi)
      rwa [show pos + 1 + i = pos + (i + 1) by omega]

/-- Two indices less than a turn apart are different cells. -/
theorem mod_ne_of_lt {cap pos i j : Nat} (hij : i < j) (hj : j < i + cap) : (pos + i) % cap ≠ (pos + j) % cap := by
  intro h
  have h1 : (pos + j - (pos + i)) % cap = 0 := Nat.sub_mod_eq_zero_of_mod_eq h.symm
  rw [show pos + j - (pos + i) = j - i by omega, Nat.mod_eq_of_lt (by omega)] at h1
  omega

/-- Byte `i` of a run no longer than the array is read back at index `(pos + i) mod cap` (R62, R101). -/
theorem Memory.read_writeRun_same (m : Memory) (cap pos : Nat) (bs : List Byte) (hlen : bs.length ≤ cap) (i : Nat)
    (hi : i < bs.length) : (m.writeRun cap pos bs).read ((pos + i) % cap) = some bs[i] := by
  induction bs generalizing m pos i with
  | nil => simp at hi
  | cons b bs ih =>
    rw [Memory.writeRun]
    cases i with
    | zero =>
      rw [Memory.read_writeRun_other]
      · simp
      · intro j hj
        simp only [List.length_cons] at hlen
        rw [show pos + 1 + j = pos + (j + 1) by omega]
        exact mod_ne_of_lt (by omega) (by omega)
    | succ i =>
      simp only [List.length_cons] at hlen hi
      rw [show pos + (i + 1) = pos + 1 + i by omega, ih _ _ (by omega) _ (by omega)]
      simp

/-- A cell that has been written stays written. -/
theorem Memory.isSome_write {m : Memory} {c : Nat} (a : Nat) (b : Byte) (h : (m.read c).isSome = true) :
    ((m.write a b).read c).isSome = true := by
  by_cases hc : c = a
  · subst hc; simp
  · rwa [Memory.read_write_other _ _ hc]

end Sys2Proof.Machine
end

