-- ==== Sys2Proof/Laws/State.lean ====
section
/-! SUPPORT. What each primitive update of the state does to each field: one lemma per field per update, so that no proof
unfolds a record update. -/

namespace Sys2Proof.Machine

variable (s : State)

@[simp] theorem State.ret_cfg (r : OpResult) : (s.ret r).cfg = s.cfg := rfl
@[simp] theorem State.ret_ring (r : OpResult) : (s.ret r).ring = s.ring := rfl
@[simp] theorem State.ret_throttle (r : OpResult) : (s.ret r).throttle = s.throttle := rfl
@[simp] theorem State.ret_rxNotifyEn (r : OpResult) : (s.ret r).rxNotifyEn = s.rxNotifyEn := rfl
@[simp] theorem State.ret_txNotifyEn (r : OpResult) : (s.ret r).txNotifyEn = s.txNotifyEn := rfl
@[simp] theorem State.ret_putDrop (r : OpResult) : (s.ret r).putDrop = s.putDrop := rfl
@[simp] theorem State.ret_txDrop (r : OpResult) : (s.ret r).txDrop = s.txDrop := rfl
@[simp] theorem State.ret_line (r : OpResult) : (s.ret r).line = s.line := rfl
@[simp] theorem State.ret_ch (r : OpResult) : (s.ret r).ch = s.ch := rfl
@[simp] theorem State.ret_pinOut (r : OpResult) : (s.ret r).pinOut = s.pinOut := rfl
@[simp] theorem State.ret_rxq (r : OpResult) : (s.ret r).rxq = s.rxq := rfl
@[simp] theorem State.ret_txlog (r : OpResult) : (s.ret r).txlog = s.txlog := rfl
@[simp] theorem State.ret_clock (r : OpResult) : (s.ret r).clock = s.clock := rfl
@[simp] theorem State.ret_booted (r : OpResult) : (s.ret r).booted = s.booted := rfl
@[simp] theorem State.ret_calling (r : OpResult) : (s.ret r).calling = s.calling := rfl
@[simp] theorem State.ret_epoch (r : OpResult) : (s.ret r).epoch = s.epoch := rfl
@[simp] theorem State.ret_draws (r : OpResult) : (s.ret r).draws = s.draws := rfl
@[simp] theorem State.ret_schedule (r : OpResult) : (s.ret r).schedule = s.schedule := rfl
@[simp] theorem State.ret_result (r : OpResult) : (s.ret r).result = r := rfl
@[simp] theorem State.ret_log (r : OpResult) : (s.ret r).log = s.log := rfl

@[simp] theorem State.say_cfg (e : LogEntry) : (s.say e).cfg = s.cfg := rfl
@[simp] theorem State.say_ring (e : LogEntry) : (s.say e).ring = s.ring := rfl
@[simp] theorem State.say_throttle (e : LogEntry) : (s.say e).throttle = s.throttle := rfl
@[simp] theorem State.say_rxNotifyEn (e : LogEntry) : (s.say e).rxNotifyEn = s.rxNotifyEn := rfl
@[simp] theorem State.say_txNotifyEn (e : LogEntry) : (s.say e).txNotifyEn = s.txNotifyEn := rfl
@[simp] theorem State.say_putDrop (e : LogEntry) : (s.say e).putDrop = s.putDrop := rfl
@[simp] theorem State.say_txDrop (e : LogEntry) : (s.say e).txDrop = s.txDrop := rfl
@[simp] theorem State.say_line (e : LogEntry) : (s.say e).line = s.line := rfl
@[simp] theorem State.say_ch (e : LogEntry) : (s.say e).ch = s.ch := rfl
@[simp] theorem State.say_pinOut (e : LogEntry) : (s.say e).pinOut = s.pinOut := rfl
@[simp] theorem State.say_rxq (e : LogEntry) : (s.say e).rxq = s.rxq := rfl
@[simp] theorem State.say_txlog (e : LogEntry) : (s.say e).txlog = s.txlog := rfl
@[simp] theorem State.say_clock (e : LogEntry) : (s.say e).clock = s.clock := rfl
@[simp] theorem State.say_booted (e : LogEntry) : (s.say e).booted = s.booted := rfl
@[simp] theorem State.say_calling (e : LogEntry) : (s.say e).calling = s.calling := rfl
@[simp] theorem State.say_epoch (e : LogEntry) : (s.say e).epoch = s.epoch := rfl
@[simp] theorem State.say_draws (e : LogEntry) : (s.say e).draws = s.draws := rfl
@[simp] theorem State.say_schedule (e : LogEntry) : (s.say e).schedule = s.schedule := rfl
@[simp] theorem State.say_result (e : LogEntry) : (s.say e).result = s.result := rfl
@[simp] theorem State.say_log (e : LogEntry) : (s.say e).log = s.log ++ [e] := rfl

@[simp] theorem State.note_cfg (c : SoftClass) : (s.note c).cfg = s.cfg := rfl
@[simp] theorem State.note_ring (c : SoftClass) : (s.note c).ring = s.ring := rfl
@[simp] theorem State.note_throttle (c : SoftClass) : (s.note c).throttle = s.throttle := rfl
@[simp] theorem State.note_rxNotifyEn (c : SoftClass) : (s.note c).rxNotifyEn = s.rxNotifyEn := rfl
@[simp] theorem State.note_txNotifyEn (c : SoftClass) : (s.note c).txNotifyEn = s.txNotifyEn := rfl
@[simp] theorem State.note_putDrop (c : SoftClass) : (s.note c).putDrop = s.putDrop := rfl
@[simp] theorem State.note_txDrop (c : SoftClass) : (s.note c).txDrop = s.txDrop := rfl
@[simp] theorem State.note_line (c : SoftClass) : (s.note c).line = s.line := rfl
@[simp] theorem State.note_ch (c : SoftClass) : (s.note c).ch = s.ch := rfl
@[simp] theorem State.note_pinOut (c : SoftClass) : (s.note c).pinOut = s.pinOut := rfl
@[simp] theorem State.note_rxq (c : SoftClass) : (s.note c).rxq = s.rxq := rfl
@[simp] theorem State.note_txlog (c : SoftClass) : (s.note c).txlog = s.txlog := rfl
@[simp] theorem State.note_clock (c : SoftClass) : (s.note c).clock = s.clock := rfl
@[simp] theorem State.note_booted (c : SoftClass) : (s.note c).booted = s.booted := rfl
@[simp] theorem State.note_calling (c : SoftClass) : (s.note c).calling = s.calling := rfl
@[simp] theorem State.note_epoch (c : SoftClass) : (s.note c).epoch = s.epoch := rfl
@[simp] theorem State.note_draws (c : SoftClass) : (s.note c).draws = s.draws := rfl
@[simp] theorem State.note_schedule (c : SoftClass) : (s.note c).schedule = s.schedule := rfl
@[simp] theorem State.note_result (c : SoftClass) : (s.note c).result = s.result := rfl
@[simp] theorem State.note_log (c : SoftClass) : (s.note c).log = s.log ++ [.note c] := rfl

@[simp] theorem State.enableRx_cfg : (s.enableRx).cfg = s.cfg := rfl
@[simp] theorem State.enableRx_ring : (s.enableRx).ring = s.ring := rfl
@[simp] theorem State.enableRx_throttle : (s.enableRx).throttle = s.throttle := rfl
@[simp] theorem State.enableRx_rxNotifyEn : (s.enableRx).rxNotifyEn = true := rfl
@[simp] theorem State.enableRx_txNotifyEn : (s.enableRx).txNotifyEn = s.txNotifyEn := rfl
@[simp] theorem State.enableRx_putDrop : (s.enableRx).putDrop = s.putDrop := rfl
@[simp] theorem State.enableRx_txDrop : (s.enableRx).txDrop = s.txDrop := rfl
@[simp] theorem State.enableRx_line : (s.enableRx).line = s.line := rfl
@[simp] theorem State.enableRx_ch : (s.enableRx).ch = s.ch := rfl
@[simp] theorem State.enableRx_pinOut : (s.enableRx).pinOut = s.pinOut := rfl
@[simp] theorem State.enableRx_rxq : (s.enableRx).rxq = s.rxq := rfl
@[simp] theorem State.enableRx_txlog : (s.enableRx).txlog = s.txlog := rfl
@[simp] theorem State.enableRx_clock : (s.enableRx).clock = s.clock := rfl
@[simp] theorem State.enableRx_booted : (s.enableRx).booted = s.booted := rfl
@[simp] theorem State.enableRx_calling : (s.enableRx).calling = s.calling := rfl
@[simp] theorem State.enableRx_epoch : (s.enableRx).epoch = s.epoch := rfl
@[simp] theorem State.enableRx_draws : (s.enableRx).draws = s.draws := rfl
@[simp] theorem State.enableRx_schedule : (s.enableRx).schedule = s.schedule := rfl
@[simp] theorem State.enableRx_result : (s.enableRx).result = s.result := rfl
@[simp] theorem State.enableRx_log : (s.enableRx).log = s.log ++ [.enableRx] := rfl

@[simp] theorem State.disableRx_cfg : (s.disableRx).cfg = s.cfg := rfl
@[simp] theorem State.disableRx_ring : (s.disableRx).ring = s.ring := rfl
@[simp] theorem State.disableRx_throttle : (s.disableRx).throttle = s.throttle := rfl
@[simp] theorem State.disableRx_rxNotifyEn : (s.disableRx).rxNotifyEn = false := rfl
@[simp] theorem State.disableRx_txNotifyEn : (s.disableRx).txNotifyEn = s.txNotifyEn := rfl
@[simp] theorem State.disableRx_putDrop : (s.disableRx).putDrop = s.putDrop := rfl
@[simp] theorem State.disableRx_txDrop : (s.disableRx).txDrop = s.txDrop := rfl
@[simp] theorem State.disableRx_line : (s.disableRx).line = s.line := rfl
@[simp] theorem State.disableRx_ch : (s.disableRx).ch = s.ch := rfl
@[simp] theorem State.disableRx_pinOut : (s.disableRx).pinOut = s.pinOut := rfl
@[simp] theorem State.disableRx_rxq : (s.disableRx).rxq = s.rxq := rfl
@[simp] theorem State.disableRx_txlog : (s.disableRx).txlog = s.txlog := rfl
@[simp] theorem State.disableRx_clock : (s.disableRx).clock = s.clock := rfl
@[simp] theorem State.disableRx_booted : (s.disableRx).booted = s.booted := rfl
@[simp] theorem State.disableRx_calling : (s.disableRx).calling = s.calling := rfl
@[simp] theorem State.disableRx_epoch : (s.disableRx).epoch = s.epoch := rfl
@[simp] theorem State.disableRx_draws : (s.disableRx).draws = s.draws := rfl
@[simp] theorem State.disableRx_schedule : (s.disableRx).schedule = s.schedule := rfl
@[simp] theorem State.disableRx_result : (s.disableRx).result = s.result := rfl
@[simp] theorem State.disableRx_log : (s.disableRx).log = s.log ++ [.disableRx] := rfl

@[simp] theorem State.enableTx_cfg : (s.enableTx).cfg = s.cfg := rfl
@[simp] theorem State.enableTx_ring : (s.enableTx).ring = s.ring := rfl
@[simp] theorem State.enableTx_throttle : (s.enableTx).throttle = s.throttle := rfl
@[simp] theorem State.enableTx_rxNotifyEn : (s.enableTx).rxNotifyEn = s.rxNotifyEn := rfl
@[simp] theorem State.enableTx_txNotifyEn : (s.enableTx).txNotifyEn = true := rfl
@[simp] theorem State.enableTx_putDrop : (s.enableTx).putDrop = s.putDrop := rfl
@[simp] theorem State.enableTx_txDrop : (s.enableTx).txDrop = s.txDrop := rfl
@[simp] theorem State.enableTx_line : (s.enableTx).line = s.line := rfl
@[simp] theorem State.enableTx_ch : (s.enableTx).ch = s.ch := rfl
@[simp] theorem State.enableTx_pinOut : (s.enableTx).pinOut = s.pinOut := rfl
@[simp] theorem State.enableTx_rxq : (s.enableTx).rxq = s.rxq := rfl
@[simp] theorem State.enableTx_txlog : (s.enableTx).txlog = s.txlog := rfl
@[simp] theorem State.enableTx_clock : (s.enableTx).clock = s.clock := rfl
@[simp] theorem State.enableTx_booted : (s.enableTx).booted = s.booted := rfl
@[simp] theorem State.enableTx_calling : (s.enableTx).calling = s.calling := rfl
@[simp] theorem State.enableTx_epoch : (s.enableTx).epoch = s.epoch := rfl
@[simp] theorem State.enableTx_draws : (s.enableTx).draws = s.draws := rfl
@[simp] theorem State.enableTx_schedule : (s.enableTx).schedule = s.schedule := rfl
@[simp] theorem State.enableTx_result : (s.enableTx).result = s.result := rfl
@[simp] theorem State.enableTx_log : (s.enableTx).log = s.log ++ [.enableTx] := rfl

@[simp] theorem State.disableTx_cfg : (s.disableTx).cfg = s.cfg := rfl
@[simp] theorem State.disableTx_ring : (s.disableTx).ring = s.ring := rfl
@[simp] theorem State.disableTx_throttle : (s.disableTx).throttle = s.throttle := rfl
@[simp] theorem State.disableTx_rxNotifyEn : (s.disableTx).rxNotifyEn = s.rxNotifyEn := rfl
@[simp] theorem State.disableTx_txNotifyEn : (s.disableTx).txNotifyEn = false := rfl
@[simp] theorem State.disableTx_putDrop : (s.disableTx).putDrop = s.putDrop := rfl
@[simp] theorem State.disableTx_txDrop : (s.disableTx).txDrop = s.txDrop := rfl
@[simp] theorem State.disableTx_line : (s.disableTx).line = s.line := rfl
@[simp] theorem State.disableTx_ch : (s.disableTx).ch = s.ch := rfl
@[simp] theorem State.disableTx_pinOut : (s.disableTx).pinOut = s.pinOut := rfl
@[simp] theorem State.disableTx_rxq : (s.disableTx).rxq = s.rxq := rfl
@[simp] theorem State.disableTx_txlog : (s.disableTx).txlog = s.txlog := rfl
@[simp] theorem State.disableTx_clock : (s.disableTx).clock = s.clock := rfl
@[simp] theorem State.disableTx_booted : (s.disableTx).booted = s.booted := rfl
@[simp] theorem State.disableTx_calling : (s.disableTx).calling = s.calling := rfl
@[simp] theorem State.disableTx_epoch : (s.disableTx).epoch = s.epoch := rfl
@[simp] theorem State.disableTx_draws : (s.disableTx).draws = s.draws := rfl
@[simp] theorem State.disableTx_schedule : (s.disableTx).schedule = s.schedule := rfl
@[simp] theorem State.disableTx_result : (s.disableTx).result = s.result := rfl
@[simp] theorem State.disableTx_log : (s.disableTx).log = s.log ++ [.disableTx] := rfl

@[simp] theorem State.afterRead_cfg (n : Nat) : (s.afterRead n).cfg = s.cfg := rfl
@[simp] theorem State.afterRead_ring (n : Nat) : (s.afterRead n).ring = s.ring := rfl
@[simp] theorem State.afterRead_throttle (n : Nat) : (s.afterRead n).throttle = s.throttle := rfl
@[simp] theorem State.afterRead_rxNotifyEn (n : Nat) : (s.afterRead n).rxNotifyEn = s.rxNotifyEn := rfl
@[simp] theorem State.afterRead_txNotifyEn (n : Nat) : (s.afterRead n).txNotifyEn = s.txNotifyEn := rfl
@[simp] theorem State.afterRead_putDrop (n : Nat) : (s.afterRead n).putDrop = s.putDrop := rfl
@[simp] theorem State.afterRead_txDrop (n : Nat) : (s.afterRead n).txDrop = s.txDrop := rfl
@[simp] theorem State.afterRead_line (n : Nat) : (s.afterRead n).line = s.line := rfl
@[simp] theorem State.afterRead_ch (n : Nat) : (s.afterRead n).ch = s.ch := rfl
@[simp] theorem State.afterRead_pinOut (n : Nat) : (s.afterRead n).pinOut = s.pinOut := rfl
@[simp] theorem State.afterRead_rxq (n : Nat) : (s.afterRead n).rxq = s.rxq.drop (s.readCount n) := rfl
@[simp] theorem State.afterRead_txlog (n : Nat) : (s.afterRead n).txlog = s.txlog := rfl
@[simp] theorem State.afterRead_clock (n : Nat) : (s.afterRead n).clock = s.clock := rfl
@[simp] theorem State.afterRead_booted (n : Nat) : (s.afterRead n).booted = s.booted := rfl
@[simp] theorem State.afterRead_calling (n : Nat) : (s.afterRead n).calling = s.calling := rfl
@[simp] theorem State.afterRead_epoch (n : Nat) : (s.afterRead n).epoch = s.epoch := rfl
@[simp] theorem State.afterRead_draws (n : Nat) : (s.afterRead n).draws = s.draws := rfl
@[simp] theorem State.afterRead_schedule (n : Nat) : (s.afterRead n).schedule = s.schedule := rfl
@[simp] theorem State.afterRead_result (n : Nat) : (s.afterRead n).result = s.result := rfl
@[simp] theorem State.afterRead_log (n : Nat) : (s.afterRead n).log = s.log ++ [.read n (s.chunk n)] := rfl

@[simp] theorem State.afterWrite_cfg (out : List Byte) : (s.afterWrite out).cfg = s.cfg := rfl
@[simp] theorem State.afterWrite_ring (out : List Byte) : (s.afterWrite out).ring = s.ring := rfl
@[simp] theorem State.afterWrite_throttle (out : List Byte) : (s.afterWrite out).throttle = s.throttle := rfl
@[simp] theorem State.afterWrite_rxNotifyEn (out : List Byte) : (s.afterWrite out).rxNotifyEn = s.rxNotifyEn := rfl
@[simp] theorem State.afterWrite_txNotifyEn (out : List Byte) : (s.afterWrite out).txNotifyEn = s.txNotifyEn := rfl
@[simp] theorem State.afterWrite_putDrop (out : List Byte) : (s.afterWrite out).putDrop = s.putDrop := rfl
@[simp] theorem State.afterWrite_txDrop (out : List Byte) : (s.afterWrite out).txDrop = s.txDrop := rfl
@[simp] theorem State.afterWrite_line (out : List Byte) : (s.afterWrite out).line = s.line := rfl
@[simp] theorem State.afterWrite_ch (out : List Byte) : (s.afterWrite out).ch = s.ch := rfl
@[simp] theorem State.afterWrite_pinOut (out : List Byte) : (s.afterWrite out).pinOut = s.pinOut := rfl
@[simp] theorem State.afterWrite_rxq (out : List Byte) : (s.afterWrite out).rxq = s.rxq := rfl
@[simp] theorem State.afterWrite_txlog (out : List Byte) : (s.afterWrite out).txlog = s.txlog ++ out.take (s.writeCount out) := rfl
@[simp] theorem State.afterWrite_clock (out : List Byte) : (s.afterWrite out).clock = s.clock := rfl
@[simp] theorem State.afterWrite_booted (out : List Byte) : (s.afterWrite out).booted = s.booted := rfl
@[simp] theorem State.afterWrite_calling (out : List Byte) : (s.afterWrite out).calling = s.calling := rfl
@[simp] theorem State.afterWrite_epoch (out : List Byte) : (s.afterWrite out).epoch = s.epoch := rfl
@[simp] theorem State.afterWrite_draws (out : List Byte) : (s.afterWrite out).draws = s.draws := rfl
@[simp] theorem State.afterWrite_schedule (out : List Byte) : (s.afterWrite out).schedule = s.schedule := rfl
@[simp] theorem State.afterWrite_result (out : List Byte) : (s.afterWrite out).result = s.result := rfl
@[simp] theorem State.afterWrite_log (out : List Byte) : (s.afterWrite out).log = s.log ++ [.write out (s.writeCount out)] := rfl

@[simp] theorem State.afterNow_cfg : (s.afterNow).cfg = s.cfg := rfl
@[simp] theorem State.afterNow_ring : (s.afterNow).ring = s.ring := rfl
@[simp] theorem State.afterNow_throttle : (s.afterNow).throttle = s.throttle := rfl
@[simp] theorem State.afterNow_rxNotifyEn : (s.afterNow).rxNotifyEn = s.rxNotifyEn := rfl
@[simp] theorem State.afterNow_txNotifyEn : (s.afterNow).txNotifyEn = s.txNotifyEn := rfl
@[simp] theorem State.afterNow_putDrop : (s.afterNow).putDrop = s.putDrop := rfl
@[simp] theorem State.afterNow_txDrop : (s.afterNow).txDrop = s.txDrop := rfl
@[simp] theorem State.afterNow_line : (s.afterNow).line = s.line := rfl
@[simp] theorem State.afterNow_ch : (s.afterNow).ch = s.ch := rfl
@[simp] theorem State.afterNow_pinOut : (s.afterNow).pinOut = s.pinOut := rfl
@[simp] theorem State.afterNow_rxq : (s.afterNow).rxq = s.rxq := rfl
@[simp] theorem State.afterNow_txlog : (s.afterNow).txlog = s.txlog := rfl
@[simp] theorem State.afterNow_clock : (s.afterNow).clock = s.nextTime := rfl
@[simp] theorem State.afterNow_booted : (s.afterNow).booted = s.booted := rfl
@[simp] theorem State.afterNow_calling : (s.afterNow).calling = s.calling := rfl
@[simp] theorem State.afterNow_epoch : (s.afterNow).epoch = s.epoch := rfl
@[simp] theorem State.afterNow_draws : (s.afterNow).draws = { s.draws with clock := s.draws.clock.tail } := rfl
@[simp] theorem State.afterNow_schedule : (s.afterNow).schedule = s.schedule := rfl
@[simp] theorem State.afterNow_result : (s.afterNow).result = s.result := rfl
@[simp] theorem State.afterNow_log : (s.afterNow).log = s.log ++ [.now s.now] := rfl

@[simp] theorem State.setLevel_cfg (i : Nat) (v : Bool) : (s.setLevel i v).cfg = s.cfg := rfl
@[simp] theorem State.setLevel_ring (i : Nat) (v : Bool) : (s.setLevel i v).ring = s.ring := rfl
@[simp] theorem State.setLevel_throttle (i : Nat) (v : Bool) : (s.setLevel i v).throttle = s.throttle := rfl
@[simp] theorem State.setLevel_rxNotifyEn (i : Nat) (v : Bool) : (s.setLevel i v).rxNotifyEn = s.rxNotifyEn := rfl
@[simp] theorem State.setLevel_txNotifyEn (i : Nat) (v : Bool) : (s.setLevel i v).txNotifyEn = s.txNotifyEn := rfl
@[simp] theorem State.setLevel_putDrop (i : Nat) (v : Bool) : (s.setLevel i v).putDrop = s.putDrop := rfl
@[simp] theorem State.setLevel_txDrop (i : Nat) (v : Bool) : (s.setLevel i v).txDrop = s.txDrop := rfl
@[simp] theorem State.setLevel_line (i : Nat) (v : Bool) : (s.setLevel i v).line = s.line := rfl
@[simp] theorem State.setLevel_ch (i : Nat) (v : Bool) : (s.setLevel i v).ch = s.ch := rfl
@[simp] theorem State.setLevel_pinOut (i : Nat) (v : Bool) : (s.setLevel i v).pinOut = s.pinOut.set i v := rfl
@[simp] theorem State.setLevel_rxq (i : Nat) (v : Bool) : (s.setLevel i v).rxq = s.rxq := rfl
@[simp] theorem State.setLevel_txlog (i : Nat) (v : Bool) : (s.setLevel i v).txlog = s.txlog := rfl
@[simp] theorem State.setLevel_clock (i : Nat) (v : Bool) : (s.setLevel i v).clock = s.clock := rfl
@[simp] theorem State.setLevel_booted (i : Nat) (v : Bool) : (s.setLevel i v).booted = s.booted := rfl
@[simp] theorem State.setLevel_calling (i : Nat) (v : Bool) : (s.setLevel i v).calling = s.calling := rfl
@[simp] theorem State.setLevel_epoch (i : Nat) (v : Bool) : (s.setLevel i v).epoch = s.epoch := rfl
@[simp] theorem State.setLevel_draws (i : Nat) (v : Bool) : (s.setLevel i v).draws = s.draws := rfl
@[simp] theorem State.setLevel_schedule (i : Nat) (v : Bool) : (s.setLevel i v).schedule = s.schedule := rfl
@[simp] theorem State.setLevel_result (i : Nat) (v : Bool) : (s.setLevel i v).result = s.result := rfl
@[simp] theorem State.setLevel_log (i : Nat) (v : Bool) : (s.setLevel i v).log = s.log ++ [.setLevel i v] := rfl

@[simp] theorem State.setChan_cfg (i : Nat) (c : BlinkChannel) : (s.setChan i c).cfg = s.cfg := rfl
@[simp] theorem State.setChan_ring (i : Nat) (c : BlinkChannel) : (s.setChan i c).ring = s.ring := rfl
@[simp] theorem State.setChan_throttle (i : Nat) (c : BlinkChannel) : (s.setChan i c).throttle = s.throttle := rfl
@[simp] theorem State.setChan_rxNotifyEn (i : Nat) (c : BlinkChannel) : (s.setChan i c).rxNotifyEn = s.rxNotifyEn := rfl
@[simp] theorem State.setChan_txNotifyEn (i : Nat) (c : BlinkChannel) : (s.setChan i c).txNotifyEn = s.txNotifyEn := rfl
@[simp] theorem State.setChan_putDrop (i : Nat) (c : BlinkChannel) : (s.setChan i c).putDrop = s.putDrop := rfl
@[simp] theorem State.setChan_txDrop (i : Nat) (c : BlinkChannel) : (s.setChan i c).txDrop = s.txDrop := rfl
@[simp] theorem State.setChan_line (i : Nat) (c : BlinkChannel) : (s.setChan i c).line = s.line := rfl
@[simp] theorem State.setChan_ch (i : Nat) (c : BlinkChannel) : (s.setChan i c).ch = s.ch.set i c := rfl
@[simp] theorem State.setChan_pinOut (i : Nat) (c : BlinkChannel) : (s.setChan i c).pinOut = s.pinOut := rfl
@[simp] theorem State.setChan_rxq (i : Nat) (c : BlinkChannel) : (s.setChan i c).rxq = s.rxq := rfl
@[simp] theorem State.setChan_txlog (i : Nat) (c : BlinkChannel) : (s.setChan i c).txlog = s.txlog := rfl
@[simp] theorem State.setChan_clock (i : Nat) (c : BlinkChannel) : (s.setChan i c).clock = s.clock := rfl
@[simp] theorem State.setChan_booted (i : Nat) (c : BlinkChannel) : (s.setChan i c).booted = s.booted := rfl
@[simp] theorem State.setChan_calling (i : Nat) (c : BlinkChannel) : (s.setChan i c).calling = s.calling := rfl
@[simp] theorem State.setChan_epoch (i : Nat) (c : BlinkChannel) : (s.setChan i c).epoch = s.epoch := rfl
@[simp] theorem State.setChan_draws (i : Nat) (c : BlinkChannel) : (s.setChan i c).draws = s.draws := rfl
@[simp] theorem State.setChan_schedule (i : Nat) (c : BlinkChannel) : (s.setChan i c).schedule = s.schedule := rfl
@[simp] theorem State.setChan_result (i : Nat) (c : BlinkChannel) : (s.setChan i c).result = s.result := rfl
@[simp] theorem State.setChan_log (i : Nat) (c : BlinkChannel) : (s.setChan i c).log = s.log := rfl

@[simp] theorem State.setCursor_cfg (n : Nat) : (s.setCursor n).cfg = s.cfg := rfl
@[simp] theorem State.setCursor_ring (n : Nat) : (s.setCursor n).ring = s.ring := rfl
@[simp] theorem State.setCursor_throttle (n : Nat) : (s.setCursor n).throttle = s.throttle := rfl
@[simp] theorem State.setCursor_rxNotifyEn (n : Nat) : (s.setCursor n).rxNotifyEn = s.rxNotifyEn := rfl
@[simp] theorem State.setCursor_txNotifyEn (n : Nat) : (s.setCursor n).txNotifyEn = s.txNotifyEn := rfl
@[simp] theorem State.setCursor_putDrop (n : Nat) : (s.setCursor n).putDrop = s.putDrop := rfl
@[simp] theorem State.setCursor_txDrop (n : Nat) : (s.setCursor n).txDrop = s.txDrop := rfl
@[simp] theorem State.setCursor_line (n : Nat) : (s.setCursor n).line = { s.line with cursor := n } := rfl
@[simp] theorem State.setCursor_ch (n : Nat) : (s.setCursor n).ch = s.ch := rfl
@[simp] theorem State.setCursor_pinOut (n : Nat) : (s.setCursor n).pinOut = s.pinOut := rfl
@[simp] theorem State.setCursor_rxq (n : Nat) : (s.setCursor n).rxq = s.rxq := rfl
@[simp] theorem State.setCursor_txlog (n : Nat) : (s.setCursor n).txlog = s.txlog := rfl
@[simp] theorem State.setCursor_clock (n : Nat) : (s.setCursor n).clock = s.clock := rfl
@[simp] theorem State.setCursor_booted (n : Nat) : (s.setCursor n).booted = s.booted := rfl
@[simp] theorem State.setCursor_calling (n : Nat) : (s.setCursor n).calling = s.calling := rfl
@[simp] theorem State.setCursor_epoch (n : Nat) : (s.setCursor n).epoch = s.epoch := rfl
@[simp] theorem State.setCursor_draws (n : Nat) : (s.setCursor n).draws = s.draws := rfl
@[simp] theorem State.setCursor_schedule (n : Nat) : (s.setCursor n).schedule = s.schedule := rfl
@[simp] theorem State.setCursor_result (n : Nat) : (s.setCursor n).result = s.result := rfl
@[simp] theorem State.setCursor_log (n : Nat) : (s.setCursor n).log = s.log := rfl

@[simp] theorem State.append_cfg (b : Byte) : (s.append b).cfg = s.cfg := rfl
@[simp] theorem State.append_ring (b : Byte) : (s.append b).ring = s.ring := rfl
@[simp] theorem State.append_throttle (b : Byte) : (s.append b).throttle = s.throttle := rfl
@[simp] theorem State.append_rxNotifyEn (b : Byte) : (s.append b).rxNotifyEn = s.rxNotifyEn := rfl
@[simp] theorem State.append_txNotifyEn (b : Byte) : (s.append b).txNotifyEn = s.txNotifyEn := rfl
@[simp] theorem State.append_putDrop (b : Byte) : (s.append b).putDrop = s.putDrop := rfl
@[simp] theorem State.append_txDrop (b : Byte) : (s.append b).txDrop = s.txDrop := rfl
@[simp] theorem State.append_line (b : Byte) : (s.append b).line = { buf := s.line.buf.write s.line.cursor b, cursor := s.line.cursor + 1 } := rfl
@[simp] theorem State.append_ch (b : Byte) : (s.append b).ch = s.ch := rfl
@[simp] theorem State.append_pinOut (b : Byte) : (s.append b).pinOut = s.pinOut := rfl
@[simp] theorem State.append_rxq (b : Byte) : (s.append b).rxq = s.rxq := rfl
@[simp] theorem State.append_txlog (b : Byte) : (s.append b).txlog = s.txlog := rfl
@[simp] theorem State.append_clock (b : Byte) : (s.append b).clock = s.clock := rfl
@[simp] theorem State.append_booted (b : Byte) : (s.append b).booted = s.booted := rfl
@[simp] theorem State.append_calling (b : Byte) : (s.append b).calling = s.calling := rfl
@[simp] theorem State.append_epoch (b : Byte) : (s.append b).epoch = s.epoch := rfl
@[simp] theorem State.append_draws (b : Byte) : (s.append b).draws = s.draws := rfl
@[simp] theorem State.append_schedule (b : Byte) : (s.append b).schedule = s.schedule := rfl
@[simp] theorem State.append_result (b : Byte) : (s.append b).result = s.result := rfl
@[simp] theorem State.append_log (b : Byte) : (s.append b).log = s.log := rfl

@[simp] theorem State.put_cfg (data : List Byte) : (s.put data).cfg = s.cfg := rfl
@[simp] theorem State.put_throttle (data : List Byte) : (s.put data).throttle = s.throttle := rfl
@[simp] theorem State.put_rxNotifyEn (data : List Byte) : (s.put data).rxNotifyEn = s.rxNotifyEn := rfl
@[simp] theorem State.put_txNotifyEn (data : List Byte) : (s.put data).txNotifyEn = s.txNotifyEn := rfl
@[simp] theorem State.put_putDrop (data : List Byte) : (s.put data).putDrop = s.putDrop := rfl
@[simp] theorem State.put_txDrop (data : List Byte) : (s.put data).txDrop = s.txDrop := rfl
@[simp] theorem State.put_line (data : List Byte) : (s.put data).line = s.line := rfl
@[simp] theorem State.put_ch (data : List Byte) : (s.put data).ch = s.ch := rfl
@[simp] theorem State.put_pinOut (data : List Byte) : (s.put data).pinOut = s.pinOut := rfl
@[simp] theorem State.put_rxq (data : List Byte) : (s.put data).rxq = s.rxq := rfl
@[simp] theorem State.put_txlog (data : List Byte) : (s.put data).txlog = s.txlog := rfl
@[simp] theorem State.put_clock (data : List Byte) : (s.put data).clock = s.clock := rfl
@[simp] theorem State.put_booted (data : List Byte) : (s.put data).booted = s.booted := rfl
@[simp] theorem State.put_calling (data : List Byte) : (s.put data).calling = s.calling := rfl
@[simp] theorem State.put_epoch (data : List Byte) : (s.put data).epoch = s.epoch := rfl
@[simp] theorem State.put_draws (data : List Byte) : (s.put data).draws = s.draws := rfl
@[simp] theorem State.put_schedule (data : List Byte) : (s.put data).schedule = s.schedule := rfl
@[simp] theorem State.put_result (data : List Byte) : (s.put data).result = s.result := rfl
@[simp] theorem State.put_log (data : List Byte) : (s.put data).log = s.log := rfl

@[simp] theorem State.pop_cfg (most : Nat) : (s.pop most).cfg = s.cfg := rfl
@[simp] theorem State.pop_throttle (most : Nat) : (s.pop most).throttle = s.throttle := rfl
@[simp] theorem State.pop_rxNotifyEn (most : Nat) : (s.pop most).rxNotifyEn = s.rxNotifyEn := rfl
@[simp] theorem State.pop_txNotifyEn (most : Nat) : (s.pop most).txNotifyEn = s.txNotifyEn := rfl
@[simp] theorem State.pop_putDrop (most : Nat) : (s.pop most).putDrop = s.putDrop := rfl
@[simp] theorem State.pop_txDrop (most : Nat) : (s.pop most).txDrop = s.txDrop := rfl
@[simp] theorem State.pop_line (most : Nat) : (s.pop most).line = s.line := rfl
@[simp] theorem State.pop_ch (most : Nat) : (s.pop most).ch = s.ch := rfl
@[simp] theorem State.pop_pinOut (most : Nat) : (s.pop most).pinOut = s.pinOut := rfl
@[simp] theorem State.pop_rxq (most : Nat) : (s.pop most).rxq = s.rxq := rfl
@[simp] theorem State.pop_txlog (most : Nat) : (s.pop most).txlog = s.txlog := rfl
@[simp] theorem State.pop_clock (most : Nat) : (s.pop most).clock = s.clock := rfl
@[simp] theorem State.pop_booted (most : Nat) : (s.pop most).booted = s.booted := rfl
@[simp] theorem State.pop_calling (most : Nat) : (s.pop most).calling = s.calling := rfl
@[simp] theorem State.pop_epoch (most : Nat) : (s.pop most).epoch = s.epoch := rfl
@[simp] theorem State.pop_draws (most : Nat) : (s.pop most).draws = s.draws := rfl
@[simp] theorem State.pop_schedule (most : Nat) : (s.pop most).schedule = s.schedule := rfl
@[simp] theorem State.pop_result (most : Nat) : (s.pop most).result = s.result := rfl
@[simp] theorem State.pop_log (most : Nat) : (s.pop most).log = s.log := rfl

@[simp] theorem State.put_ring_rd (data : List Byte) : (s.put data).ring.rd = s.ring.rd := rfl
@[simp] theorem State.put_ring_wr (data : List Byte) :
    (s.put data).ring.wr = (s.ring.wr + s.accepts data) % s.cfg.ringCap := rfl
@[simp] theorem State.put_ring_count (data : List Byte) : (s.put data).ring.count = s.ring.count + s.accepts data := rfl
@[simp] theorem State.put_ring_mem (data : List Byte) :
    (s.put data).ring.mem = s.ring.mem.writeRun s.cfg.ringCap s.ring.wr (data.take (s.accepts data)) := rfl
@[simp] theorem State.pop_ring_rd (most : Nat) :
    (s.pop most).ring.rd = (s.ring.rd + min most s.ring.count) % s.cfg.ringCap := rfl
@[simp] theorem State.pop_ring_wr (most : Nat) : (s.pop most).ring.wr = s.ring.wr := rfl
@[simp] theorem State.pop_ring_count (most : Nat) : (s.pop most).ring.count = s.ring.count - min most s.ring.count := rfl
@[simp] theorem State.pop_ring_mem (most : Nat) : (s.pop most).ring.mem = s.ring.mem := rfl

/-- What a state at its reset values is, field by field (R226; the cells of the two arrays are open). -/
theorem State.atReset_iff : s.atReset = true ↔ s = { s with
    ring := { mem := s.ring.mem, wr := 0, rd := 0, count := 0 }, throttle := false, rxNotifyEn := false
    txNotifyEn := false, putDrop := 0, txDrop := 0, line := { buf := s.line.buf, cursor := 0 }
    ch := List.replicate s.cfg.nCh .reset, pinOut := List.replicate s.cfg.nCh false, calling := none } := by
  obtain ⟨_, ⟨⟩, _, _, _, _, _, ⟨⟩, _, _, _, _, _, _, _, _, _, _, _, _⟩ := s
  simp only [State.atReset, Bool.and_eq_true, decide_eq_true_eq, Bool.not_eq_true', Option.isNone_iff_eq_none,
    State.mk.injEq, RingBuffer.mk.injEq, LineBuffer.mk.injEq, true_and, and_true]
  tauto

end Sys2Proof.Machine
end

