-- ==== Sys2Proof/Laws/Ring.lean ====
section
/-! SUPPORT. What PUT, GET and `Enqueue` do to the ring, once: its content as a queue (spec/40_fifo.md R106), its invariant
(spec/10_state.md R27), and every field `Enqueue` leaves alone (spec/41_bridge.md R124). -/

namespace Sys2Proof.Machine

variable (s : State)

theorem State.accepts_le_length (data : List Byte) : s.accepts data ≤ data.length := Nat.min_le_left ..

theorem State.accepts_le_space (data : List Byte) : s.accepts data ≤ s.space := Nat.min_le_right ..

theorem State.accepts_eq (data : List Byte) : s.accepts data = min data.length (s.cfg.ringCap - s.ring.count) := rfl

@[simp] theorem State.accepts_nil : s.accepts [] = 0 := Nat.zero_min ..

theorem State.length_take_accepts (data : List Byte) : (data.take (s.accepts data)).length = s.accepts data := by
  have := s.accepts_le_length data
  simp [this]

@[simp] theorem State.length_ringRun (pos n : Nat) : (s.ringRun pos n).length = n := by simp [State.ringRun]

@[simp] theorem State.length_content : s.content.length = s.ring.count := by simp [State.content]

@[simp] theorem State.length_front (most : Nat) : (s.front most).length = min most s.ring.count := by
  simp [State.front]

theorem State.getElem?_ringRun (pos n i : Nat) :
    (s.ringRun pos n)[i]? = if i < n then some (s.ringCell ((pos + i) % s.cfg.ringCap)) else none := by
  by_cases h : i < n
  · simp [State.ringRun, h]
  · simp [State.ringRun, h]

/-- The cells of a run that have been written give its bytes. -/
theorem State.ringCell_of_read {i : Nat} {b : Byte} (h : s.ring.mem.read i = some b) : s.ringCell i = b := by
  simp [State.ringCell, h]

theorem State.getElem?_front (most i : Nat) :
    (s.front most)[i]? =
      if i < min most s.ring.count then some (s.ringCell ((s.ring.rd + i) % s.cfg.ringCap)) else none :=
  s.getElem?_ringRun ..

/-- GET returns the leading bytes of the queue (R106). -/
theorem State.front_eq_take (most : Nat) : s.front most = s.content.take most := by
  apply List.ext_getElem?
  intro i
  rw [State.getElem?_front, List.getElem?_take, State.content, State.getElem?_ringRun]
  split <;> split <;> (try split) <;> first | rfl | omega

/-- GET removes the leading bytes of the queue (R106). -/
theorem State.content_pop (most : Nat) : (s.pop most).content = s.content.drop most := by
  apply List.ext_getElem?
  intro i
  have hcell : ∀ j, (s.pop most).ringCell j = s.ringCell j := fun _ => rfl
  rw [State.content, State.getElem?_ringRun, List.getElem?_drop, State.content, State.getElem?_ringRun]
  simp only [State.pop_ring_count, State.pop_ring_rd, State.pop_cfg, hcell, Nat.mod_add_mod]
  by_cases h : i < s.ring.count - min most s.ring.count
  · rw [if_pos h, if_pos (by omega), show min most s.ring.count = most by omega, Nat.add_assoc]
  · rw [if_neg h, if_neg (by omega)]

/-- Within the valid window, PUT changes no cell (R27 I2). -/
theorem State.put_read_window (h : s.RingInv) (data : List Byte) {i : Nat} (hi : i < s.ring.count) :
    (s.put data).ring.mem.read ((s.ring.rd + i) % s.cfg.ringCap) =
      s.ring.mem.read ((s.ring.rd + i) % s.cfg.ringCap) := by
  obtain ⟨-, -, hc, -, -, hwr, -⟩ := h
  have ha := s.accepts_le_space data
  rw [State.put_ring_mem, Memory.read_writeRun_other]
  intro j hj
  rw [State.length_take_accepts] at hj
  rw [State.space] at ha
  rw [hwr, Nat.mod_add_mod, Nat.add_assoc]
  exact mod_ne_of_lt (by omega) (by omega)

/-- The bytes PUT stores, by their place behind the window (R101). -/
theorem State.put_read_new (h : s.RingInv) (data : List Byte) {i : Nat} (hi : i < s.accepts data) :
    (s.put data).ring.mem.read ((s.ring.rd + (s.ring.count + i)) % s.cfg.ringCap) = data[i]? := by
  obtain ⟨-, -, hc, -, -, hwr, -⟩ := h
  have ha := s.accepts_le_space data
  have hl := s.accepts_le_length data
  rw [State.space] at ha
  have := Memory.read_writeRun_same s.ring.mem s.cfg.ringCap s.ring.wr (data.take (s.accepts data))
    (by rw [State.length_take_accepts]; omega) i (by rw [State.length_take_accepts]; exact hi)
  rw [hwr, Nat.mod_add_mod, Nat.add_assoc] at this
  rw [State.put_ring_mem, hwr, this]
  simp [List.getElem?_eq_getElem (show i < data.length by omega)]

/-- PUT appends the bytes it accepts to the queue (R106). -/
theorem State.content_put (h : s.RingInv) (data : List Byte) :
    (s.put data).content = s.content ++ data.take (s.accepts data) := by
  have hl := s.accepts_le_length data
  apply List.ext_getElem?
  intro i
  rw [State.content, State.getElem?_ringRun, State.put_ring_count, State.put_ring_rd, State.put_cfg]
  by_cases hi : i < s.ring.count
  · rw [if_pos (by omega), List.getElem?_append_left (by simpa using hi), State.content, State.getElem?_ringRun,
      if_pos hi, State.ringCell, State.put_read_window s h data hi, State.ringCell, State.put_epoch]
  · rw [List.getElem?_append_right (by simpa using hi), State.length_content, List.getElem?_take]
    by_cases hn : i - s.ring.count < s.accepts data
    · have hr := s.put_read_new h data hn
      rw [show s.ring.count + (i - s.ring.count) = i by omega,
        List.getElem?_eq_getElem (show i - s.ring.count < data.length by omega)] at hr
      rw [if_pos (by omega), if_pos hn, State.ringCell_of_read _ hr,
        List.getElem?_eq_getElem (show i - s.ring.count < data.length by omega)]
    · rw [if_neg (by omega), if_neg hn]

theorem State.ringCap_pos (h : s.RingInv) : 0 < s.cfg.ringCap := by
  obtain ⟨-, -, -, hwr, -⟩ := h; omega

/-- PUT keeps the ring's invariant (R27). -/
theorem State.ringInv_put (h : s.RingInv) (data : List Byte) : (s.put data).RingInv := by
  have hpos := s.ringCap_pos h
  have hw := fun {i} => s.put_read_window h data (i := i)
  have hn := fun {i} => s.put_read_new h data (i := i)
  have ha := s.accepts_le_space data
  have hl := s.accepts_le_length data
  obtain ⟨hm, hlt, hc, hwr, hrd, hwe, hall⟩ := h
  rw [State.space] at ha
  refine ⟨Memory.wf_writeRun hm .., Memory.writeRun_lt hpos hlt _ _, ?_, Nat.mod_lt _ hpos, hrd, ?_, ?_⟩
  · simp only [State.put_ring_count, State.put_cfg]; omega
  · simp only [State.put_ring_count, State.put_ring_rd, State.put_ring_wr, State.put_cfg]
    rw [hwe, Nat.mod_add_mod, Nat.add_assoc]
  · intro i hi
    simp only [State.put_ring_count, State.put_ring_rd, State.put_cfg] at hi ⊢
    by_cases hlt : i < s.ring.count
    · rw [hw hlt]; exact hall i hlt
    · have := hn (i := i - s.ring.count) (by omega)
      rw [show s.ring.count + (i - s.ring.count) = i by omega] at this
      rw [this, List.getElem?_eq_getElem (show i - s.ring.count < data.length by omega)]
      rfl

/-- GET keeps the ring's invariant (R27). -/
theorem State.ringInv_pop (h : s.RingInv) (most : Nat) : (s.pop most).RingInv := by
  have hpos := s.ringCap_pos h
  obtain ⟨hm, hlt, hc, hwr, hrd, hwe, hall⟩ := h
  refine ⟨hm, hlt, ?_, hwr, Nat.mod_lt _ hpos, ?_, ?_⟩
  · simp only [State.pop_ring_count, State.pop_cfg]; omega
  · simp only [State.pop_ring_count, State.pop_ring_rd, State.pop_ring_wr, State.pop_cfg]
    rw [hwe, Nat.mod_add_mod, Nat.add_assoc]
    congr 2; omega
  · intro i hi
    simp only [State.pop_ring_count, State.pop_ring_rd, State.pop_ring_mem, State.pop_cfg] at hi ⊢
    rw [Nat.mod_add_mod, Nat.add_assoc]
    exact hall _ (by omega)

/-! Bytes put in pieces (R81) -/

theorem Memory.writeRun_append (m : Memory) (cap pos : Nat) (a b : List Byte) :
    m.writeRun cap pos (a ++ b) = (m.writeRun cap pos a).writeRun cap (pos + a.length) b := by
  induction a generalizing m pos with
  | nil => rfl
  | cons x a ih =>
    simp only [List.cons_append, Memory.writeRun, ih, List.length_cons]
    congr 1; omega

theorem Memory.writeRun_mod (m : Memory) (cap pos : Nat) (bs : List Byte) :
    m.writeRun cap (pos % cap) bs = m.writeRun cap pos bs := by
  suffices h : ∀ (m : Memory) (p q : Nat), p % cap = q % cap → m.writeRun cap p bs = m.writeRun cap q bs from
    h m _ _ (Nat.mod_mod _ _)
  induction bs with
  | nil => intros; rfl
  | cons b bs ih =>
    intro m p q h
    simp only [Memory.writeRun, h]
    exact ih _ _ _ (Nat.ModEq.add_right 1 h)

theorem State.accepts_append (a b : List Byte) : s.accepts (a ++ b) = s.accepts a + (s.put a).accepts b := by
  simp only [State.accepts_eq, List.length_append, State.put_cfg, State.put_ring_count]; omega

/-- Two pieces put one after the other are put as one: once the first is cut short the second is refused whole. -/
theorem State.put_append (a b : List Byte) : s.put (a ++ b) = (s.put a).put b := by
  have hn := s.accepts_append a b
  have hl := s.accepts_le_length a
  have ht : (a ++ b).take (s.accepts (a ++ b)) = a.take (s.accepts a) ++ b.take ((s.put a).accepts b) := by
    rw [List.take_append, hn]
    by_cases h : s.accepts a = a.length
    · rw [h]; simp
    · have h0 : (s.put a).accepts b = 0 := by
        simp only [State.accepts_eq, State.put_cfg, State.put_ring_count] at h ⊢; omega
      rw [h0, Nat.add_zero, show s.accepts a - a.length = 0 by omega]
  have hmem : (s.put (a ++ b)).ring.mem = ((s.put a).put b).ring.mem := by
    simp only [State.put_ring_mem, State.put_cfg, State.put_ring_wr, ht, Memory.writeRun_append,
      State.length_take_accepts, Memory.writeRun_mod]
  have hwr : (s.put (a ++ b)).ring.wr = ((s.put a).put b).ring.wr := by
    simp only [State.put_cfg, State.put_ring_wr, hn, Nat.mod_add_mod, Nat.add_assoc]
  have hcount : (s.put (a ++ b)).ring.count = ((s.put a).put b).ring.count := by
    simp only [State.put_ring_count, hn, Nat.add_assoc]
  have hring : (s.put (a ++ b)).ring = ((s.put a).put b).ring := by
    rw [show (s.put (a ++ b)).ring = ⟨_, _, _, _⟩ from rfl, show ((s.put a).put b).ring = ⟨_, _, _, _⟩ from rfl]
    rw [RingBuffer.mk.injEq]
    exact ⟨hmem, hwr, rfl, hcount⟩
  change { s with ring := (s.put (a ++ b)).ring } = { s with ring := ((s.put a).put b).ring }
  rw [hring]

/-! `Enqueue` -/

/-- What `Enqueue` adds to the observer's record. -/
def State.enqueueLog (s : State) (data : List Byte) : List LogEntry :=
  (if s.accepts data < data.length then [.note .capacityOverflow] else []) ++
    if 0 < s.accepts data then [.enableTx] else []

/-- Everything `Enqueue` does (R124). -/
theorem State.enqueue_eq (data : List Byte) :
    s.enqueue data =
      { s with
        ring := (s.put data).ring
        putDrop := s.putDrop + (data.length - s.accepts data)
        txNotifyEn := s.txNotifyEn || decide (0 < s.accepts data)
        log := s.log ++ s.enqueueLog data } := by
  simp only [State.enqueue, State.enqueueLog]
  split <;> split <;> simp [State.note, State.say, State.enableTx, State.put, *]

section
variable (data : List Byte)

@[simp] theorem State.enqueue_cfg : (s.enqueue data).cfg = s.cfg := by rw [State.enqueue_eq]
@[simp] theorem State.enqueue_ring : (s.enqueue data).ring = (s.put data).ring := by rw [State.enqueue_eq]
@[simp] theorem State.enqueue_throttle : (s.enqueue data).throttle = s.throttle := by rw [State.enqueue_eq]
@[simp] theorem State.enqueue_rxNotifyEn : (s.enqueue data).rxNotifyEn = s.rxNotifyEn := by rw [State.enqueue_eq]
@[simp] theorem State.enqueue_txNotifyEn :
    (s.enqueue data).txNotifyEn = (s.txNotifyEn || decide (0 < s.accepts data)) := by rw [State.enqueue_eq]
@[simp] theorem State.enqueue_putDrop :
    (s.enqueue data).putDrop = s.putDrop + (data.length - s.accepts data) := by rw [State.enqueue_eq]
@[simp] theorem State.enqueue_txDrop : (s.enqueue data).txDrop = s.txDrop := by rw [State.enqueue_eq]
@[simp] theorem State.enqueue_line : (s.enqueue data).line = s.line := by rw [State.enqueue_eq]
@[simp] theorem State.enqueue_ch : (s.enqueue data).ch = s.ch := by rw [State.enqueue_eq]
@[simp] theorem State.enqueue_pinOut : (s.enqueue data).pinOut = s.pinOut := by rw [State.enqueue_eq]
@[simp] theorem State.enqueue_rxq : (s.enqueue data).rxq = s.rxq := by rw [State.enqueue_eq]
@[simp] theorem State.enqueue_txlog : (s.enqueue data).txlog = s.txlog := by rw [State.enqueue_eq]
@[simp] theorem State.enqueue_clock : (s.enqueue data).clock = s.clock := by rw [State.enqueue_eq]
@[simp] theorem State.enqueue_booted : (s.enqueue data).booted = s.booted := by rw [State.enqueue_eq]
@[simp] theorem State.enqueue_calling : (s.enqueue data).calling = s.calling := by rw [State.enqueue_eq]
@[simp] theorem State.enqueue_epoch : (s.enqueue data).epoch = s.epoch := by rw [State.enqueue_eq]
@[simp] theorem State.enqueue_draws : (s.enqueue data).draws = s.draws := by rw [State.enqueue_eq]
@[simp] theorem State.enqueue_schedule : (s.enqueue data).schedule = s.schedule := by rw [State.enqueue_eq]
@[simp] theorem State.enqueue_result : (s.enqueue data).result = s.result := by rw [State.enqueue_eq]
@[simp] theorem State.enqueue_log : (s.enqueue data).log = s.log ++ s.enqueueLog data := by rw [State.enqueue_eq]

end

/-- The content of the ring depends on the ring, its capacity and the epoch alone. -/
theorem State.content_congr {s t : State} (hr : t.ring = s.ring) (hc : t.cfg = s.cfg) (he : t.epoch = s.epoch) :
    t.content = s.content := by
  simp [State.content, State.ringRun, State.ringCell, hr, hc, he]

@[simp] theorem State.content_ret (r : OpResult) : (s.ret r).content = s.content := rfl

@[simp] theorem State.content_say (e : LogEntry) : (s.say e).content = s.content := rfl

@[simp] theorem State.content_note (c : SoftClass) : (s.note c).content = s.content := rfl

@[simp] theorem State.content_afterRead (n : Nat) : (s.afterRead n).content = s.content := rfl

@[simp] theorem State.content_afterWrite (out : List Byte) : (s.afterWrite out).content = s.content := rfl

theorem State.content_enqueue (h : s.RingInv) (data : List Byte) :
    (s.enqueue data).content = s.content ++ data.take (s.accepts data) := by
  rw [← s.content_put h, State.content_congr] <;> simp

/-- The ring's invariant is about the ring and its capacity alone. -/
theorem State.ringInv_congr {s t : State} (hr : t.ring = s.ring) (hc : t.cfg = s.cfg) (h : s.RingInv) : t.RingInv := by
  simpa only [State.RingInv, hr, hc] using h

theorem State.ringInv_enqueue (h : s.RingInv) (data : List Byte) : (s.enqueue data).RingInv :=
  State.ringInv_congr (by simp) (by simp) (s.ringInv_put h data)

end Sys2Proof.Machine
end

