-- ==== Sys2Proof/Laws/Console.lean ====
section
/-! SUPPORT. What handlers, the dispatcher and the framer can do to the state, said once: an induction over a handler's
call, over the bytes of a chunk and over the channels of a tick, and the frame all of them keep (spec/42_framer.md R150,
R151; spec/41_bridge.md R126). -/

namespace Sys2Proof.Machine

/-! Inductions -/

/-- What every operation of a handler keeps, a handler's call keeps (R150). -/
theorem State.runHandler_induct (P : State → Prop) (hop : ∀ s o, P s → P (s.handlerOp o)) (p : HandlerProg) (last : Nat)
    (s : State) (hs : P s) : P (State.runHandler p last s) := by
  induction p generalizing last s with
  | done => exact hs
  | op o next ih => exact ih _ _ (hop s o hs)
  | ask q yes no ihy ihn =>
    rw [State.runHandler]
    split
    · exact ihy _ _ hs
    · exact ihn _ _ hs

/-- What `Enqueue` and the four channel commands keep, an operation of a handler keeps. -/
theorem State.handlerOp_induct (P : State → Prop) (henq : ∀ s data, P s → P (s.enqueue data))
    (hchen : ∀ s i, i < s.cfg.nCh → P s → P (s.chen i)) (hchdis : ∀ s i, i < s.cfg.nCh → P s → P (s.chdis i))
    (hchper : ∀ s i p, i < s.cfg.nCh → p < 2 ^ s.cfg.tsW → P s → P (s.chper i p))
    (hpinset : ∀ s i v, i < s.cfg.nCh → P s → P (s.pinset i v)) (s : State) (o : HandlerOp) (hs : P s) :
    P (s.handlerOp o) := by
  cases o with
  | wtext data => exact henq s data hs
  | chen i => simp only [State.handlerOp]; split <;> [exact hchen s i ‹_› hs; exact hs]
  | chdis i => simp only [State.handlerOp]; split <;> [exact hchdis s i ‹_› hs; exact hs]
  | chper i p =>
    simp only [State.handlerOp]
    split
    · obtain ⟨hi, hp⟩ := ‹_ ∧ _›; exact hchper s i p hi hp hs
    · exact hs
  | pinset i v => simp only [State.handlerOp]; split <;> [exact hpinset s i v ‹_› hs; exact hs]

/-- What noting, `Enqueue` and a handler's call keep, the dispatcher keeps (R147, R149). -/
theorem State.dispatch_induct (P : State → Prop) (hsay : ∀ s token args, P s → P (s.say (.dispatch token args)))
    (hnote : ∀ s c, P s → P (s.note c)) (henq : ∀ s data, P s → P (s.enqueue data))
    (hop : ∀ s o, P s → P (s.handlerOp o)) (s : State) (line : List Byte) (hs : P s) : P (s.dispatch line) := by
  simp only [State.dispatch]
  split
  · exact State.runHandler_induct P hop _ _ _ (hsay _ _ _ hs)
  · exact henq _ _ (hnote _ _ (hsay _ _ _ hs))

/-- What one FEED keeps, a chunk of them keeps (R122). -/
theorem State.feedAll_induct (P : State → Prop) (hfeed : ∀ s b, P s → P (s.feed b)) (s : State) (chunk : List Byte)
    (hs : P s) : P (s.feedAll chunk) := by
  induction chunk generalizing s with
  | nil => exact hs
  | cons b bs ih => exact ih _ (hfeed s b hs)

/-- What one channel's turn keeps, a tick's loop keeps (R161). -/
theorem State.tickUpTo_induct (P : State → Prop) (now n : Nat) (hchan : ∀ s i, i < n → P s → P (s.tickChan now i))
    (s : State) (hs : P s) : P (s.tickUpTo now n) := by
  induction n with
  | zero => exact hs
  | succ n ih => exact hchan _ _ (Nat.lt_succ_self n) (ih fun s i hi => hchan s i (by omega))

/-! The channel commands, field by field -/

theorem State.chen_eq (s : State) (i : Nat) :
    s.chen i =
      { s with
        ch := s.ch.set i { s.chan i with lastToggle := s.now, enabled := true }
        clock := s.nextTime
        draws := { s.draws with clock := s.draws.clock.tail }
        log := s.log ++ [.now s.now] } := rfl

theorem State.chdis_eq (s : State) (i : Nat) :
    s.chdis i = { s with ch := s.ch.set i { s.chan i with enabled := false } } := rfl

theorem State.chper_zero (s : State) (i : Nat) :
    s.chper i 0 =
      { s with
        ch := s.ch.set i { s.chan i with periodMs := 0, state := true, enabled := false }
        pinOut := s.pinOut.set i true
        log := s.log ++ [.setLevel i true] } := rfl

theorem State.chper_pos (s : State) (i : Nat) {p : Nat} (h : p ≠ 0) :
    s.chper i p = { s with ch := s.ch.set i { s.chan i with periodMs := p } } := by
  simp [State.chper, h, State.setChan]

theorem State.pinset_eq (s : State) (i : Nat) (v : Bool) :
    s.pinset i v =
      { s with
        ch := s.ch.set i { s.chan i with state := v }
        pinOut := s.pinOut.set i v
        log := s.log ++ [.setLevel i v] } := rfl

theorem State.tickChan_eq (s : State) (now i : Nat) :
    s.tickChan now i =
      if s.due now i then
        { s with
          ch := s.ch.set i { s.chan i with state := !(s.chan i).state, lastToggle := now }
          pinOut := s.pinOut.set i (!(s.chan i).state)
          log := s.log ++ [.setLevel i (!(s.chan i).state)] }
      else s := rfl

/-! The frame -/

/-- What nothing in the framer, the dispatcher, a handler or the sequencer touches: the parameters, the read cursor, the
throttle, the receive enable, the transport, the loss counted by TXRDY, and the model's own fields. The clock may only
go forward. -/
structure State.ConsoleFrame (s t : State) : Prop where
  cfg : t.cfg = s.cfg
  rd : t.ring.rd = s.ring.rd
  throttle : t.throttle = s.throttle
  rxNotifyEn : t.rxNotifyEn = s.rxNotifyEn
  txDrop : t.txDrop = s.txDrop
  rxq : t.rxq = s.rxq
  txlog : t.txlog = s.txlog
  booted : t.booted = s.booted
  calling : t.calling = s.calling
  epoch : t.epoch = s.epoch
  schedule : t.schedule = s.schedule
  result : t.result = s.result
  clock : s.clock ≤ t.clock

theorem State.ConsoleFrame.refl (s : State) : s.ConsoleFrame s :=
  ⟨rfl, rfl, rfl, rfl, rfl, rfl, rfl, rfl, rfl, rfl, rfl, rfl, le_refl _⟩

theorem State.ConsoleFrame.trans {s t u : State} (h : s.ConsoleFrame t) (k : t.ConsoleFrame u) : s.ConsoleFrame u :=
  ⟨k.cfg.trans h.cfg, k.rd.trans h.rd, k.throttle.trans h.throttle, k.rxNotifyEn.trans h.rxNotifyEn,
    k.txDrop.trans h.txDrop, k.rxq.trans h.rxq, k.txlog.trans h.txlog, k.booted.trans h.booted,
    k.calling.trans h.calling, k.epoch.trans h.epoch, k.schedule.trans h.schedule, k.result.trans h.result, h.clock.trans k.clock⟩

variable (s : State)

theorem State.enqueue_frame (data : List Byte) : s.ConsoleFrame (s.enqueue data) := by
  constructor <;> simp

theorem State.say_frame (e : LogEntry) : s.ConsoleFrame (s.say e) := by constructor <;> simp

theorem State.note_frame (c : SoftClass) : s.ConsoleFrame (s.note c) := by constructor <;> simp

theorem State.chen_frame (i : Nat) : s.ConsoleFrame (s.chen i) := by
  constructor <;> simp [State.chen_eq, State.nextTime]

theorem State.chdis_frame (i : Nat) : s.ConsoleFrame (s.chdis i) := by constructor <;> simp [State.chdis_eq]

theorem State.chper_frame (i p : Nat) : s.ConsoleFrame (s.chper i p) := by
  by_cases h : p = 0
  · subst h; constructor <;> simp [State.chper_zero]
  · constructor <;> simp [State.chper_pos s i h]

theorem State.pinset_frame (i : Nat) (v : Bool) : s.ConsoleFrame (s.pinset i v) := by
  constructor <;> simp [State.pinset_eq]

theorem State.handlerOp_frame (o : HandlerOp) : s.ConsoleFrame (s.handlerOp o) :=
  State.handlerOp_induct (s.ConsoleFrame ·) (fun t _ h => h.trans (t.enqueue_frame _))
    (fun t _ _ h => h.trans (t.chen_frame _)) (fun t _ _ h => h.trans (t.chdis_frame _))
    (fun t _ _ _ _ h => h.trans (t.chper_frame _ _)) (fun t _ _ _ h => h.trans (t.pinset_frame _ _)) s o (.refl s)

theorem State.runHandler_frame (p : HandlerProg) (last : Nat) : s.ConsoleFrame (State.runHandler p last s) :=
  State.runHandler_induct (s.ConsoleFrame ·) (fun t _ h => h.trans (t.handlerOp_frame _)) p last s (.refl s)

theorem State.dispatch_frame (line : List Byte) : s.ConsoleFrame (s.dispatch line) :=
  State.dispatch_induct (s.ConsoleFrame ·) (fun t _ _ h => h.trans (t.say_frame _)) (fun t _ h => h.trans (t.note_frame _))
    (fun t _ h => h.trans (t.enqueue_frame _)) (fun t _ h => h.trans (t.handlerOp_frame _)) s line (.refl s)

theorem State.setCursor_frame (n : Nat) : s.ConsoleFrame (s.setCursor n) := by constructor <;> simp

theorem State.append_frame (b : Byte) : s.ConsoleFrame (s.append b) := by constructor <;> simp

theorem State.feedTerm_frame : s.ConsoleFrame s.feedTerm := by
  simp only [State.feedTerm]
  split
  · exact ((s.dispatch_frame _).trans (State.enqueue_frame _ _)).trans (State.setCursor_frame _ _)
  · split
    · exact (s.enqueue_frame _).trans (State.setCursor_frame _ _)
    · exact s.setCursor_frame _

theorem State.feedErase_frame : s.ConsoleFrame s.feedErase := by
  simp only [State.feedErase]
  split
  · exact (s.setCursor_frame _).trans (State.enqueue_frame _ _)
  · exact .refl s

theorem State.feedPrint_frame (b : Byte) : s.ConsoleFrame (s.feedPrint b) := by
  simp only [State.feedPrint]
  split
  · exact (s.append_frame _).trans (State.enqueue_frame _ _)
  · exact s.note_frame _

theorem State.feed_frame (b : Byte) : s.ConsoleFrame (s.feed b) := by
  simp only [State.feed]
  split
  · exact s.feedTerm_frame
  · exact s.feedErase_frame
  · exact s.feedPrint_frame b
  · exact .refl s

theorem State.feedAll_frame (chunk : List Byte) : s.ConsoleFrame (s.feedAll chunk) :=
  State.feedAll_induct (s.ConsoleFrame ·) (fun t _ h => h.trans (t.feed_frame _)) s chunk (.refl s)

theorem State.deliver_frame (chunk : List Byte) : s.ConsoleFrame (s.deliver chunk) := by
  simp only [State.deliver]
  split
  · exact s.enqueue_frame _
  · exact s.feedAll_frame _

theorem State.tickChan_frame (now i : Nat) : s.ConsoleFrame (s.tickChan now i) := by
  rw [State.tickChan_eq]
  split
  · constructor <;> simp
  · exact .refl s

theorem State.tick_frame : s.ConsoleFrame s.tick :=
  State.tickUpTo_induct (s.ConsoleFrame ·) s.now s.cfg.nCh (fun u i _ h => h.trans (u.tickChan_frame _ _)) s.afterNow
    (by constructor <;> simp [State.nextTime])

/-- The line is the framer's: no handler touches it (R33). -/
theorem State.dispatch_line (line : List Byte) : (s.dispatch line).line = s.line :=
  State.dispatch_induct (fun t => t.line = s.line) (fun _ _ _ h => h) (fun _ _ h => h) (fun t data h => by simpa using h)
    (fun t o h => State.handlerOp_induct (fun t => t.line = s.line) (fun t data h => by simpa using h) (fun _ _ _ h => h)
      (fun _ _ _ h => h) (fun t i p _ _ h => by simp only [State.chper]; split <;> exact h) (fun _ _ _ _ h => h) t o h)
    s line rfl

end Sys2Proof.Machine
end

