-- ==== Sys2Proof/Laws/Invariants.lean ====
section
/-! SUPPORT. Every shared operation keeps the invariants of Safety.lean, one lemma an operation (spec/10_state.md R27, R33,
R39; spec/41_bridge.md R31). -/

namespace Sys2Proof.Machine

/-! Which fields the invariants are about -/

/-- The fields the invariant reads. -/
theorem State.inv_congr {s t : State} (hc : t.cfg = s.cfg) (hr : t.ring = s.ring) (hl : t.line = s.line)
    (hch : t.ch = s.ch) (hp : t.pinOut = s.pinOut) (h : s.Inv) : t.Inv := by
  simpa only [State.Inv, State.RingInv, State.LineInv, State.ChanInv, hc, hr, hl, hch, hp] using h

/-- A step that leaves the line and the channels alone keeps the invariant if it keeps the ring's. -/
theorem State.inv_of_ringInv {s t : State} (h : s.Inv) (hc : t.cfg = s.cfg) (hl : t.line = s.line) (hch : t.ch = s.ch)
    (hp : t.pinOut = s.pinOut) (hr : t.RingInv) : t.Inv := by
  obtain ⟨hcfg, -, hline, hchan⟩ := h
  refine ⟨hc ▸ hcfg, hr, ?_, ?_⟩
  · simpa only [State.LineInv, hc, hl] using hline
  · simpa only [State.ChanInv, hc, hch, hp] using hchan

/-- A step that leaves the ring and the line alone keeps the invariant if it keeps the channels'. -/
theorem State.inv_of_chanInv {s t : State} (h : s.Inv) (hc : t.cfg = s.cfg) (hr : t.ring = s.ring)
    (hl : t.line = s.line) (hch : t.ChanInv) : t.Inv := by
  obtain ⟨hcfg, hring, hline, -⟩ := h
  refine ⟨hc ▸ hcfg, ?_, ?_, hch⟩
  · simpa only [State.RingInv, hc, hr] using hring
  · simpa only [State.LineInv, hc, hl] using hline

/-- A step that leaves the ring and the channels alone keeps the invariant if it keeps the line's. -/
theorem State.inv_of_lineInv {s t : State} (h : s.Inv) (hc : t.cfg = s.cfg) (hr : t.ring = s.ring) (hch : t.ch = s.ch)
    (hp : t.pinOut = s.pinOut) (hl : t.LineInv) : t.Inv := by
  obtain ⟨hcfg, hring, -, hchan⟩ := h
  refine ⟨hc ▸ hcfg, ?_, hl, ?_⟩
  · simpa only [State.RingInv, hc, hr] using hring
  · simpa only [State.ChanInv, hc, hch, hp] using hchan

/-! Ring operations -/

theorem State.inv_put {s : State} (h : s.Inv) (data : List Byte) : (s.put data).Inv :=
  State.inv_of_ringInv h rfl rfl rfl rfl (s.ringInv_put h.2.1 data)

theorem State.inv_pop {s : State} (h : s.Inv) (most : Nat) : (s.pop most).Inv :=
  State.inv_of_ringInv h rfl rfl rfl rfl (s.ringInv_pop h.2.1 most)

theorem State.inv_enqueue {s : State} (h : s.Inv) (data : List Byte) : (s.enqueue data).Inv :=
  State.inv_of_ringInv h (by simp) (by simp) (by simp) (by simp) (s.ringInv_enqueue h.2.1 data)

theorem State.inv_say {s : State} (h : s.Inv) (e : LogEntry) : (s.say e).Inv := State.inv_congr rfl rfl rfl rfl rfl h

theorem State.inv_note {s : State} (h : s.Inv) (c : SoftClass) : (s.note c).Inv := State.inv_congr rfl rfl rfl rfl rfl h

/-! BlinkChannel commands -/

theorem State.chan_eq_getElem {s : State} {i : Nat} (hi : i < s.ch.length) : s.chan i = s.ch[i] := by
  simp [State.chan, hi]

/-- A record written with its old `state` leaves the list of states as it was. -/
theorem State.map_state_set_same (s : State) (i : Nat) (c : BlinkChannel) (h : c.state = (s.chan i).state) :
    (s.ch.set i c).map (·.state) = s.ch.map (·.state) := by
  rw [List.map_set, h]
  by_cases hi : i < s.ch.length
  · rw [State.chan_eq_getElem hi]
    apply List.ext_getElem?
    intro j
    rw [List.getElem?_set]
    split
    · subst_vars; simp [hi]
    · rfl
  · rw [List.set_eq_of_length_le (by simpa using hi)]

/-- The record of a channel keeps the widths of R35 and R36, in range or not. -/
theorem State.chan_fits {s : State} (h : s.ChanInv) (i : Nat) :
    (s.chan i).periodMs < 2 ^ s.cfg.tsW ∧ (s.chan i).lastToggle < 2 ^ s.cfg.tsW := by
  by_cases hi : i < s.ch.length
  · rw [State.chan_eq_getElem hi]; exact h.2.2 _ (List.getElem_mem hi)
  · simp [State.chan, List.getElem?_eq_none (Nat.le_of_not_lt hi), BlinkChannel.reset]

/-- Writing a record that fits, and its level to the pin, keeps the channels' invariant (R39 C1). -/
theorem State.chanInv_set {s t : State} {i : Nat} {c : BlinkChannel} (h : s.ChanInv) (hcfg : t.cfg = s.cfg)
    (hch : t.ch = s.ch.set i c) (hp : c.periodMs < 2 ^ s.cfg.tsW) (hl : c.lastToggle < 2 ^ s.cfg.tsW)
    (hpin : t.pinOut = (s.ch.set i c).map (·.state)) : t.ChanInv := by
  obtain ⟨hlen, -, hall⟩ := h
  refine ⟨by simp [hch, hcfg, hlen], by rw [hpin, hch], fun d hd => ?_⟩
  rw [hch] at hd
  rw [hcfg]
  rcases List.mem_or_eq_of_mem_set hd with hd | rfl
  · exact hall d hd
  · exact ⟨hp, hl⟩

theorem State.now_lt (s : State) : s.now < 2 ^ s.cfg.tsW := Nat.mod_lt _ (Nat.two_pow_pos _)

theorem State.inv_chen {s : State} (h : s.Inv) (i : Nat) : (s.chen i).Inv := by
  have hc := h.2.2.2
  refine State.inv_of_chanInv h rfl rfl rfl
    (State.chanInv_set hc rfl rfl (s.chan_fits hc i).1 s.now_lt ?_)
  exact hc.2.1.trans (State.map_state_set_same s i _ (by rfl)).symm

theorem State.inv_chdis {s : State} (h : s.Inv) (i : Nat) : (s.chdis i).Inv := by
  have hc := h.2.2.2
  refine State.inv_of_chanInv h rfl rfl rfl
    (State.chanInv_set hc rfl rfl (s.chan_fits hc i).1 (s.chan_fits hc i).2 ?_)
  exact hc.2.1.trans (State.map_state_set_same s i _ (by rfl)).symm

theorem State.inv_chper {s : State} (h : s.Inv) (i : Nat) {p : Nat} (hp : p < 2 ^ s.cfg.tsW) : (s.chper i p).Inv := by
  have hc := h.2.2.2
  by_cases h0 : p = 0
  · subst h0
    rw [State.chper_zero]
    refine State.inv_of_chanInv h rfl rfl rfl
      (State.chanInv_set hc rfl rfl (Nat.two_pow_pos _) (s.chan_fits hc i).2 ?_)
    rw [List.map_set, ← hc.2.1]
  · rw [State.chper_pos s i h0]
    refine State.inv_of_chanInv h rfl rfl rfl (State.chanInv_set hc rfl rfl hp (s.chan_fits hc i).2 ?_)
    exact hc.2.1.trans (State.map_state_set_same s i _ (by rfl)).symm

theorem State.inv_pinset {s : State} (h : s.Inv) (i : Nat) (v : Bool) : (s.pinset i v).Inv := by
  have hc := h.2.2.2
  rw [State.pinset_eq]
  refine State.inv_of_chanInv h rfl rfl rfl
    (State.chanInv_set hc rfl rfl (s.chan_fits hc i).1 (s.chan_fits hc i).2 ?_)
  rw [List.map_set, ← hc.2.1]

theorem State.inv_handlerOp {s : State} (h : s.Inv) (o : HandlerOp) : (s.handlerOp o).Inv :=
  State.handlerOp_induct State.Inv (fun _ data h => State.inv_enqueue h data) (fun _ i _ h => State.inv_chen h i)
    (fun _ i _ h => State.inv_chdis h i) (fun _ i _ _ hp h => State.inv_chper h i hp)
    (fun _ i v _ h => State.inv_pinset h i v) s o h

theorem State.inv_dispatch {s : State} (h : s.Inv) (line : List Byte) : (s.dispatch line).Inv :=
  State.dispatch_induct State.Inv (fun _ _ _ h => State.inv_say h _) (fun _ c h => State.inv_note h c)
    (fun _ data h => State.inv_enqueue h data) (fun _ o h => State.inv_handlerOp h o) s line h

/-! The framer -/

theorem State.inv_setCursor {s : State} (h : s.Inv) {n : Nat} (hn : n ≤ s.line.cursor) : (s.setCursor n).Inv := by
  obtain ⟨hw, hlt, hcur, hall⟩ := h.2.2.1
  exact State.inv_of_lineInv h rfl rfl rfl rfl
    ⟨hw, hlt, hn.trans hcur, fun i hi => hall i (Nat.lt_of_lt_of_le hi hn)⟩

theorem State.inv_append {s : State} (h : s.Inv) {b : Byte} (hb : byteClass b = .print)
    (hroom : s.line.cursor < s.cfg.lineCap - 1) : (s.append b).Inv := by
  obtain ⟨hw, hlt, hcur, hall⟩ := h.2.2.1
  refine State.inv_of_lineInv h rfl rfl rfl rfl ⟨Memory.wf_write hw _ _, fun c hc => ?_, hroom, fun i hi => ?_⟩
  · rcases Memory.mem_write hc with rfl | hc
    · exact hroom
    · exact hlt c hc
  · simp only [State.append_line] at hi ⊢
    by_cases hic : i = s.line.cursor
    · subst hic; simp [hb]
    · rw [Memory.read_write_other _ _ hic]; exact hall i (by omega)

theorem State.inv_feedTerm {s : State} (h : s.Inv) : s.feedTerm.Inv := by
  simp only [State.feedTerm]
  split
  · exact State.inv_setCursor (State.inv_enqueue (State.inv_dispatch h _) _) (Nat.zero_le _)
  · split
    · exact State.inv_setCursor (State.inv_enqueue h _) (Nat.zero_le _)
    · exact State.inv_setCursor h (Nat.zero_le _)

theorem State.inv_feedErase {s : State} (h : s.Inv) : s.feedErase.Inv := by
  simp only [State.feedErase]
  split
  · exact State.inv_enqueue (State.inv_setCursor h (Nat.sub_le _ _)) _
  · exact h

theorem State.inv_feedPrint {s : State} (h : s.Inv) {b : Byte} (hb : byteClass b = .print) : (s.feedPrint b).Inv := by
  simp only [State.feedPrint, State.lineOpen, decide_eq_true_eq]
  split
  · exact State.inv_enqueue (State.inv_append h hb ‹_›) _
  · exact State.inv_note h _

theorem State.inv_feed {s : State} (h : s.Inv) (b : Byte) : (s.feed b).Inv := by
  simp only [State.feed]
  split
  · exact State.inv_feedTerm h
  · exact State.inv_feedErase h
  · exact State.inv_feedPrint h ‹_›
  · exact h

theorem State.inv_feedAll {s : State} (h : s.Inv) (chunk : List Byte) : (s.feedAll chunk).Inv :=
  State.feedAll_induct State.Inv (fun _ b h => State.inv_feed h b) s chunk h

/-! The events -/

theorem State.inv_deliver {s : State} (h : s.Inv) (chunk : List Byte) : (s.deliver chunk).Inv := by
  simp only [State.deliver]
  split
  · exact State.inv_enqueue h _
  · exact State.inv_feedAll h _

theorem State.inv_receive {s : State} (h : s.Inv) : s.receive.Inv := by
  simp only [State.receive]
  split
  · exact State.inv_congr rfl rfl rfl rfl rfl h
  · have h1 : (s.afterRead s.readAsk).Inv := State.inv_congr rfl rfl rfl rfl rfl h
    apply State.inv_deliver
    split
    · exact State.inv_note h1 _
    · exact h1

theorem State.inv_resume {s : State} (h : s.Inv) : s.resume.Inv := by
  simp only [State.resume]
  split
  · exact State.inv_congr rfl rfl rfl rfl rfl h
  · exact h

theorem State.inv_transmit {s : State} (h : s.Inv) : s.transmit.Inv := by
  have h1 := State.inv_pop h s.cfg.txBurst
  simp only [State.transmit]
  split
  · exact State.inv_congr rfl rfl rfl rfl rfl h1
  · apply State.inv_resume
    split
    · exact State.inv_congr rfl rfl rfl rfl rfl h1
    · exact State.inv_congr rfl rfl rfl rfl rfl h1

theorem State.inv_tickChan {s : State} (h : s.Inv) {now : Nat} (hn : now < 2 ^ s.cfg.tsW) (i : Nat) :
    (s.tickChan now i).Inv := by
  have hc := h.2.2.2
  rw [State.tickChan_eq]
  split
  · refine State.inv_of_chanInv h rfl rfl rfl
      (State.chanInv_set hc rfl rfl (s.chan_fits hc i).1 hn ?_)
    rw [List.map_set, ← hc.2.1]
  · exact h

theorem State.inv_tick {s : State} (h : s.Inv) : s.tick.Inv := by
  have h1 : s.afterNow.Inv := State.inv_congr rfl rfl rfl rfl rfl h
  refine (State.tickUpTo_induct (fun t => t.Inv ∧ t.cfg = s.cfg) s.now s.cfg.nCh (fun t i _ ht => ?_) _ ⟨h1, rfl⟩).1
  exact ⟨State.inv_tickChan ht.1 (ht.2 ▸ s.now_lt) i, by rw [(t.tickChan_frame _ _).cfg, ht.2]⟩

/-! The environment steps -/

theorem State.inv_resetOf {p : Params} (h : p.wf) : (State.resetOf p).Inv := by
  obtain ⟨h1, h2, h3, h4, h5, h6, h7, h8⟩ := h
  refine ⟨⟨h1, h2, h3, h4, h5, h6, h7, h8⟩, ?_, ?_, ?_⟩
  · exact ⟨List.Pairwise.nil, by simp [State.resetOf], Nat.zero_le _, h1, h1, by simp [State.resetOf],
      by simp [State.resetOf]⟩
  · exact ⟨List.Pairwise.nil, by simp [State.resetOf], Nat.zero_le _, by simp [State.resetOf]⟩
  · refine ⟨by simp [State.resetOf], by simp [State.resetOf, BlinkChannel.reset], fun c hc => ?_⟩
    obtain rfl := List.eq_of_mem_replicate hc
    exact ⟨Nat.two_pow_pos _, Nat.two_pow_pos _⟩

end Sys2Proof.Machine
end

