-- ==== Sys2Proof/Laws/Bridge.lean ====
section
/-! SUPPORT. What RXRDY and TXRDY do, case by case (spec/41_bridge.md R121 to R123), what reaches the observer's record, and
the bridge's own invariants operation by operation (spec/10_state.md R31). -/

namespace Sys2Proof.Machine

variable (s : State)

/-! The transport's answers (R196, R197) -/

theorem State.chunk_eq (n : Nat) : s.chunk n = s.rxq.take (min s.draws.read n) := by
  simp only [State.chunk, State.readCount]
  rw [← List.take_eq_take_min]

@[simp] theorem State.length_chunk (n : Nat) : (s.chunk n).length = s.readCount n := by
  simp [State.chunk, State.readCount]

theorem State.readCount_le (n : Nat) : s.readCount n ≤ n := by simp only [State.readCount]; omega

/-- A read never asks for more than the free space (R127 P1). -/
theorem State.readAsk_le_space : s.readAsk ≤ s.space := Nat.min_le_left ..

theorem State.chunk_append_drop (n : Nat) : s.chunk n ++ s.rxq.drop (s.readCount n) = s.rxq := List.take_append_drop ..

theorem State.writeCount_le (out : List Byte) : s.writeCount out ≤ out.length := Nat.min_le_right ..

/-! RXRDY (R121, R122) -/

theorem State.receive_full (h : s.space = 0) :
    s.receive =
      { s with rxNotifyEn := false, throttle := true, log := s.log ++ [.disableRx, .note .capacityOverflow] } := by
  simp [State.receive, h, State.note, State.say, State.disableRx]

/-- The state RXRDY hands the chunk over in. -/
def State.readDone (s : State) : State :=
  { s with
    rxq := s.rxq.drop (s.readCount s.readAsk)
    log := s.log ++ .read s.readAsk (s.chunk s.readAsk) ::
      if s.readCount s.readAsk < s.readAsk then [.note .partialTransfer] else [] }

theorem State.receive_open (h : s.space ≠ 0) : s.receive = s.readDone.deliver (s.chunk s.readAsk) := by
  simp only [State.receive, if_neg h, State.length_chunk, State.readDone]
  split <;> simp [State.afterRead, State.note, State.say]

theorem State.readDone_accepts : s.readDone.accepts (s.chunk s.readAsk) = (s.chunk s.readAsk).length := by
  have := s.readCount_le s.readAsk
  have := s.readAsk_le_space
  simp only [State.accepts, State.length_chunk]
  exact Nat.min_eq_left (by unfold State.space at *; simp only [State.readDone]; omega)

/-- With `SINK = LOOPBACK` the whole chunk is queued (R122, R127 P2). -/
theorem State.receive_loopback (h : s.space ≠ 0) (hs : s.cfg.sink = .loopback) :
    s.receive = s.readDone.enqueue (s.chunk s.readAsk) := by
  rw [State.receive_open s h, State.deliver]
  simp only [State.readDone, hs]

/-- With `SINK = CONSOLE` the chunk is fed to the framer (R122). -/
theorem State.receive_console (h : s.space ≠ 0) (hs : s.cfg.sink = .console) :
    s.receive = s.readDone.feedAll (s.chunk s.readAsk) := by
  rw [State.receive_open s h, State.deliver]
  simp only [State.readDone, hs]

/-! TXRDY (R123) -/

theorem State.transmit_empty (h : min s.cfg.txBurst s.ring.count = 0) :
    s.transmit = (s.pop s.cfg.txBurst).disableTx := by
  simp [State.transmit, h]

theorem State.transmit_eq (h : min s.cfg.txBurst s.ring.count ≠ 0) :
    s.transmit =
      { s with
        ring := (s.pop s.cfg.txBurst).ring
        txlog := s.txlog ++ (s.front s.cfg.txBurst).take (s.writeCount (s.front s.cfg.txBurst))
        txDrop := s.txDrop + ((s.front s.cfg.txBurst).length - s.writeCount (s.front s.cfg.txBurst))
        throttle := false
        rxNotifyEn := s.rxNotifyEn || s.throttle
        log := s.log ++ .write (s.front s.cfg.txBurst) (s.writeCount (s.front s.cfg.txBurst)) ::
          (if s.writeCount (s.front s.cfg.txBurst) < (s.front s.cfg.txBurst).length then [.note .partialTransfer]
            else []) ++ if s.throttle then [.enableRx] else [] } := by
  simp only [State.transmit, State.length_front, if_neg h]
  cases ht : s.throttle <;> split <;>
    simp [State.resume, State.afterWrite, State.note, State.say, State.enableRx, ht, State.pop, State.writeCount]

/-! What the record shows -/

@[simp] theorem LogEntry.asRead_dispatch (token args : List Byte) : (LogEntry.dispatch token args).asRead = none := rfl
@[simp] theorem LogEntry.asRead_note (c : SoftClass) : (LogEntry.note c).asRead = none := rfl
@[simp] theorem LogEntry.asRead_now (t : Nat) : (LogEntry.now t).asRead = none := rfl
@[simp] theorem LogEntry.asRead_setLevel (i : Nat) (v : Bool) : (LogEntry.setLevel i v).asRead = none := rfl
@[simp] theorem LogEntry.asRead_enableTx : LogEntry.enableTx.asRead = none := rfl
@[simp] theorem LogEntry.asRead_disableTx : LogEntry.disableTx.asRead = none := rfl
@[simp] theorem LogEntry.asRead_enableRx : LogEntry.enableRx.asRead = none := rfl
@[simp] theorem LogEntry.asRead_disableRx : LogEntry.disableRx.asRead = none := rfl
@[simp] theorem LogEntry.asRead_write (out : List Byte) (n : Nat) : (LogEntry.write out n).asRead = none := rfl
@[simp] theorem LogEntry.asRead_read (n : Nat) (got : List Byte) : (LogEntry.read n got).asRead = some (n, got) := rfl
@[simp] theorem LogEntry.asDispatch_note (c : SoftClass) : (LogEntry.note c).asDispatch = none := rfl
@[simp] theorem LogEntry.asDispatch_now (t : Nat) : (LogEntry.now t).asDispatch = none := rfl
@[simp] theorem LogEntry.asDispatch_setLevel (i : Nat) (v : Bool) : (LogEntry.setLevel i v).asDispatch = none := rfl
@[simp] theorem LogEntry.asDispatch_enableTx : LogEntry.enableTx.asDispatch = none := rfl
@[simp] theorem LogEntry.asDispatch_dispatch (token args : List Byte) :
    (LogEntry.dispatch token args).asDispatch = some (token, args) := rfl

/-- Queuing text reads nothing from the transport and dispatches nothing (R124). -/
theorem State.enqueue_reads (data : List Byte) : (s.enqueue data).reads = s.reads := by
  simp only [State.reads, State.enqueue_log, State.enqueueLog]
  split <;> split <;> simp

theorem State.enqueue_dispatched (data : List Byte) : (s.enqueue data).dispatched = s.dispatched := by
  simp only [State.dispatched, State.enqueue_log, State.enqueueLog]
  split <;> split <;> simp

/-- Neither a handler nor the sequencer's commands read the transport or dispatch a line (R150). -/
theorem State.handlerOp_reads_dispatched (o : HandlerOp) :
    (s.handlerOp o).reads = s.reads ∧ (s.handlerOp o).dispatched = s.dispatched := by
  refine State.handlerOp_induct (fun t => t.reads = s.reads ∧ t.dispatched = s.dispatched) ?_ ?_ ?_ ?_ ?_ s o ⟨rfl, rfl⟩
  · intro t data h; rw [State.enqueue_reads, State.enqueue_dispatched]; exact h
  · intro t i _ h; simpa [State.reads, State.dispatched, List.filterMap_cons, State.chen_eq] using h
  · intro t i _ h; exact h
  · intro t i p _ _ h
    by_cases hp : p = 0
    · subst hp; simpa [State.reads, State.dispatched, List.filterMap_cons, State.chper_zero] using h
    · simpa [State.reads, State.dispatched, List.filterMap_cons, State.chper_pos _ _ hp] using h
  · intro t i v _ h; simpa [State.reads, State.dispatched, List.filterMap_cons, State.pinset_eq] using h

/-- DISPATCH records itself once, and reads nothing (R147). -/
theorem State.dispatch_reads_dispatched (line : List Byte) :
    (s.dispatch line).reads = s.reads ∧
      (s.dispatch line).dispatched = s.dispatched ++ [(tokenOf line, argsOf line)] := by
  have hs : (s.say (.dispatch (tokenOf line) (argsOf line))).reads = s.reads ∧
      (s.say (.dispatch (tokenOf line) (argsOf line))).dispatched = s.dispatched ++ [(tokenOf line, argsOf line)] := by
    simp [State.reads, State.dispatched]
  simp only [State.dispatch]
  split
  · refine State.runHandler_induct
      (fun t => t.reads = s.reads ∧ t.dispatched = s.dispatched ++ [(tokenOf line, argsOf line)]) ?_ _ _ _ hs
    intro t o h
    rw [(t.handlerOp_reads_dispatched o).1, (t.handlerOp_reads_dispatched o).2]; exact h
  · rw [State.enqueue_reads, State.enqueue_dispatched]
    simp [State.reads, State.dispatched]

theorem State.feed_reads (b : Byte) : (s.feed b).reads = s.reads := by
  simp only [State.feed]
  split
  · simp only [State.feedTerm]
    split
    · exact (State.enqueue_reads _ _).trans (s.dispatch_reads_dispatched _).1
    · split
      · exact s.enqueue_reads _
      · rfl
  · simp only [State.feedErase]
    split
    · exact State.enqueue_reads _ _
    · rfl
  · simp only [State.feedPrint]
    split
    · exact State.enqueue_reads _ _
    · simp [State.reads]
  · rfl

theorem State.deliver_reads (chunk : List Byte) : (s.deliver chunk).reads = s.reads := by
  simp only [State.deliver]
  split
  · exact s.enqueue_reads _
  · exact State.feedAll_induct (fun t => t.reads = s.reads) (fun t b h => (t.feed_reads b).trans h) s chunk rfl

theorem State.tick_log_reads (now n : Nat) : (s.tickUpTo now n).reads = s.reads :=
  State.tickUpTo_induct (fun t => t.reads = s.reads) now n
    (fun t i _ h => by rw [State.tickChan_eq]; split <;> simpa [State.reads, List.filterMap_cons] using h) s rfl

/-! The bridge's invariants (R31) -/

/-- The fields B1 to B3 read. -/
theorem State.bridgeInv_congr {s t : State} (hc : t.cfg = s.cfg) (hr : t.ring.count = s.ring.count)
    (ht : t.throttle = s.throttle) (hrx : t.rxNotifyEn = s.rxNotifyEn) (htx : t.txNotifyEn = s.txNotifyEn)
    (hb : t.booted = s.booted) (h : s.BridgeInv) : t.BridgeInv := by
  simpa only [State.BridgeInv, hc, hr, ht, hrx, htx, hb] using h

theorem State.bridgeInv_enqueue {s : State} (hr : s.RingInv) (h : s.BridgeInv) (data : List Byte) :
    (s.enqueue data).BridgeInv := by
  obtain ⟨h1, h2, h3, h4⟩ := h
  have ha := s.accepts_le_space data
  have hc := hr.2.2.1
  unfold State.space at ha
  refine ⟨by simpa using h1, ?_, ?_, by simpa using h4⟩
  · intro hpos
    rw [State.enqueue_txNotifyEn, Bool.or_eq_true, decide_eq_true_eq]
    simp only [State.enqueue_ring, State.put_ring_count] at hpos
    by_cases h0 : 0 < s.accepts data
    · exact Or.inr h0
    · exact Or.inl (h2 (by omega))
  · intro ht
    have := h3 (by simpa using ht)
    simp only [State.enqueue_ring, State.put_ring_count, State.enqueue_cfg]; omega

theorem State.bridgeInv_handlerOp {s : State} (hi : s.Inv) (h : s.BridgeInv) (o : HandlerOp) :
    (s.handlerOp o).Inv ∧ (s.handlerOp o).BridgeInv := by
  refine State.handlerOp_induct (fun t => t.Inv ∧ t.BridgeInv) ?_ ?_ ?_ ?_ ?_ s o ⟨hi, h⟩
  · intro t data h; exact ⟨State.inv_enqueue h.1 _, State.bridgeInv_enqueue h.1.2.1 h.2 _⟩
  · intro t i _ h; exact ⟨State.inv_chen h.1 i, h.2⟩
  · intro t i _ h; exact ⟨State.inv_chdis h.1 i, h.2⟩
  · intro t i p _ hp h
    refine ⟨State.inv_chper h.1 i hp, ?_⟩
    simp only [State.chper]; split <;> exact h.2
  · intro t i v _ h; exact ⟨State.inv_pinset h.1 i v, h.2⟩

theorem State.bridgeInv_dispatch {s : State} (hi : s.Inv) (h : s.BridgeInv) (line : List Byte) :
    (s.dispatch line).Inv ∧ (s.dispatch line).BridgeInv := by
  refine State.dispatch_induct (fun t => t.Inv ∧ t.BridgeInv) ?_ ?_ ?_ ?_ s line ⟨hi, h⟩
  · intro t _ _ h; exact ⟨State.inv_say h.1 _, h.2⟩
  · intro t c h; exact ⟨State.inv_note h.1 c, h.2⟩
  · intro t data h; exact ⟨State.inv_enqueue h.1 _, State.bridgeInv_enqueue h.1.2.1 h.2 _⟩
  · intro t o h; exact State.bridgeInv_handlerOp h.1 h.2 o

theorem State.bridgeInv_feedTerm {s : State} (hi : s.Inv) (h : s.BridgeInv) : s.feedTerm.BridgeInv := by
  simp only [State.feedTerm]
  split
  · have hd := State.bridgeInv_dispatch hi h s.lineText
    exact State.bridgeInv_enqueue hd.1.2.1 hd.2 _
  · split
    · exact State.bridgeInv_enqueue hi.2.1 h _
    · exact h

theorem State.bridgeInv_feedErase {s : State} (hi : s.Inv) (h : s.BridgeInv) : s.feedErase.BridgeInv := by
  simp only [State.feedErase]
  split
  · exact State.bridgeInv_enqueue (s := s.setCursor (s.line.cursor - 1)) hi.2.1 h _
  · exact h

theorem State.bridgeInv_feedPrint {s : State} (hi : s.Inv) (h : s.BridgeInv) (b : Byte) :
    (s.feedPrint b).BridgeInv := by
  simp only [State.feedPrint]
  split
  · exact State.bridgeInv_enqueue (s := s.append b) hi.2.1 h _
  · exact h

theorem State.bridgeInv_feed {s : State} (hi : s.Inv) (h : s.BridgeInv) (b : Byte) : (s.feed b).BridgeInv := by
  simp only [State.feed]
  split
  · exact State.bridgeInv_feedTerm hi h
  · exact State.bridgeInv_feedErase hi h
  · exact State.bridgeInv_feedPrint hi h b
  · exact h

theorem State.bridgeInv_deliver {s : State} (hi : s.Inv) (h : s.BridgeInv) (chunk : List Byte) :
    (s.deliver chunk).BridgeInv := by
  simp only [State.deliver]
  split
  · exact State.bridgeInv_enqueue hi.2.1 h _
  · exact (State.feedAll_induct (fun t => t.Inv ∧ t.BridgeInv)
      (fun t b h => ⟨State.inv_feed h.1 b, State.bridgeInv_feed h.1 h.2 b⟩) s chunk ⟨hi, h⟩).2

theorem State.bridgeInv_tick {s : State} (h : s.BridgeInv) : s.tick.BridgeInv :=
  State.tickUpTo_induct State.BridgeInv s.now s.cfg.nCh
    (fun t i _ h => by rw [State.tickChan_eq]; split <;> exact h) s.afterNow h

end Sys2Proof.Machine
end

