-- ==== Sys2Proof/Laws/Codec.lean ====
section
/-! SUPPORT. The big-endian words of a record and the table of operation codes (spec/30_encoding.md R80, R82): each pair of
functions undoes the other. -/

namespace Sys2Proof

@[simp] theorem length_natBE (k n : Nat) : (natBE k n).length = k := by
  induction k generalizing n with
  | zero => rfl
  | succ k ih => simp [natBE, ih]

theorem beNat_concat (bs : List Byte) (b : Byte) : beNat (bs ++ [b]) = beNat bs * 256 + b.toNat := by
  simp [beNat]

/-- Bytes written from a number spell that number, as far as they reach. -/
theorem beNat_natBE (k n : Nat) : beNat (natBE k n) = n % 256 ^ k := by
  induction k generalizing n with
  | zero => simp [natBE, beNat, Nat.mod_one]
  | succ k ih =>
    rw [natBE, beNat_concat, ih, BitVec.toNat_ofNat]
    have h1 : n % 256 ^ (k + 1) = n % 256 + 256 * (n / 256 % 256 ^ k) := by
      rw [Nat.pow_succ', Nat.mod_mul]
    norm_num at h1 ⊢
    omega

/-- A number that fits is read back. -/
theorem beNat_natBE_of_lt {k n : Nat} (h : n < 256 ^ k) : beNat (natBE k n) = n := by
  rw [beNat_natBE, Nat.mod_eq_of_lt h]

/-- The number some bytes spell is written as those bytes. -/
theorem natBE_beNat (bs : List Byte) : natBE bs.length (beNat bs) = bs := by
  induction bs using List.reverseRecOn with
  | nil => rfl
  | append_singleton bs b ih =>
    have hb : b.toNat < 256 := b.isLt
    rw [List.length_append, List.length_singleton, natBE, beNat_concat, show (beNat bs * 256 + b.toNat) / 256 = beNat bs by
      omega, ih]
    congr 2
    apply BitVec.eq_of_toNat_eq
    rw [BitVec.toNat_ofNat]
    omega

/-- TS_W bits fit the bytes of a `val` word (R80). -/
theorem two_pow_tsW_le (p : Params) : 2 ^ p.tsW ≤ 256 ^ valBytes p := by
  rw [show (256 : Nat) = 2 ^ 8 by norm_num, ← Nat.pow_mul]
  exact Nat.pow_le_pow_right (by norm_num) (by unfold valBytes; omega)

/-- Each operation is the one its code selects. -/
@[simp] theorem Opcode.ofByte_code (o : Opcode) : Opcode.ofByte o.code = some o := by cases o <;> rfl

/-- A byte that selects an operation is its code. -/
theorem Opcode.code_of_ofByte {b : Byte} {o : Opcode} (h : Opcode.ofByte b = some o) : o.code = b :=
  eq_of_beq (List.find?_some (p := fun x : Opcode => x.code == b) h)

/-- The FEED row a byte selects carries that byte. -/
@[simp] theorem feedInstr_opcode (b : Byte) : (feedInstr b).opcode = .feed := by
  unfold feedInstr; split <;> rfl

@[simp] theorem feedInstr_chField (b : Byte) : (feedInstr b).chField = 0 := by
  unfold feedInstr; split <;> rfl

@[simp] theorem feedInstr_valField (b : Byte) : (feedInstr b).valField = some b.toNat := by
  unfold feedInstr; split <;> rfl

@[simp] theorem feedInstr_dataField (b : Byte) : (feedInstr b).dataField = [] := by
  unfold feedInstr; split <;> rfl

@[simp] theorem feedInstr_wf (p : Params) (b : Byte) : (feedInstr b).wf p = valFits p b.toNat := by
  unfold feedInstr; split <;> simp [Instr.wf, *]

/-- A `val` word written is read back, where its operation allows it (R80). -/
theorem takeVal_natBE (p : Params) (o : Opcode) (v : Nat) (after : List Byte) (h : v < 2 ^ p.tsW)
    (h2 : v < o.valLimit p) :
    takeVal p o (natBE (valBytes p) v ++ after) = .ok (v, after) := by
  have h3 := two_pow_tsW_le p
  have hb : beNat (natBE (valBytes p) v) = v := beNat_natBE_of_lt (by omega)
  have ht : (natBE (valBytes p) v ++ after).take (valBytes p) = natBE (valBytes p) v := by
    rw [List.take_append_of_le_length (by simp)]; exact List.take_of_length_le (by simp)
  have hd : (natBE (valBytes p) v ++ after).drop (valBytes p) = after := by
    rw [List.drop_append_of_le_length (by simp)]; simp
  simp only [takeVal, ht, hd, hb]
  rw [if_neg (by simp), if_neg (by omega), if_neg (by omega)]

/-- A `val` word that is read is the one written, and within its operation's limits (R80). -/
theorem natBE_of_takeVal {p : Params} {o : Opcode} {body : List Byte} {r : Nat × List Byte}
    (h : takeVal p o body = .ok r) :
    body = natBE (valBytes p) r.1 ++ r.2 ∧ r.1 < 2 ^ p.tsW ∧ r.1 < o.valLimit p := by
  simp only [takeVal] at h
  split at h
  · cases h
  · split at h
    · cases h
    · split at h
      · cases h
      · cases h
        rename_i h1 h2 h3
        refine ⟨?_, by omega, by omega⟩
        have hl : (body.take (valBytes p)).length = valBytes p := by simp; omega
        have := natBE_beNat (body.take (valBytes p))
        rw [hl] at this
        rw [this, List.take_append_drop]

end Sys2Proof
end

