-- ==== Sys2Proof/Laws/Result.lean ====
section
/-! SUPPORT. The result port is written and never read: what an earlier operation left there changes nothing a later one
does (spec/10_state.md R22). So a chunk fed byte by byte inside RXRDY is the same as one FEED after another (R122). -/

namespace Sys2Proof.Machine

variable (s : State) (r : OpResult)

@[simp] theorem State.ret_ret (r' : OpResult) : (s.ret r).ret r' = s.ret r' := rfl

theorem State.ret_enqueue (data : List Byte) : (s.ret r).enqueue data = (s.enqueue data).ret r := by
  rw [State.enqueue_eq, State.enqueue_eq]; rfl

theorem State.ret_handlerOp (o : HandlerOp) : (s.ret r).handlerOp o = (s.handlerOp o).ret r := by
  cases o with
  | wtext data => exact s.ret_enqueue r data
  | chen i =>
    by_cases h : i < s.cfg.nCh
    · simp only [State.handlerOp, State.ret_cfg, h, if_true]; rfl
    · simp only [State.handlerOp, State.ret_cfg, h, if_false]
  | chdis i =>
    by_cases h : i < s.cfg.nCh
    · simp only [State.handlerOp, State.ret_cfg, h, if_true]; rfl
    · simp only [State.handlerOp, State.ret_cfg, h, if_false]
  | chper i p =>
    by_cases h : i < s.cfg.nCh ∧ p < 2 ^ s.cfg.tsW
    · simp only [State.handlerOp, State.ret_cfg, h, and_self, if_true, State.chper]; split <;> rfl
    · simp only [State.handlerOp, State.ret_cfg, h, if_false]
  | pinset i v =>
    by_cases h : i < s.cfg.nCh
    · simp only [State.handlerOp, State.ret_cfg, h, if_true]; rfl
    · simp only [State.handlerOp, State.ret_cfg, h, if_false]

@[simp] theorem State.ret_answer (last : Nat) (q : HandlerQuery) : (s.ret r).answer last q = s.answer last q := by
  cases q <;> rfl

@[simp] theorem State.ret_handlerSaw (last : Nat) (o : HandlerOp) : (s.ret r).handlerSaw last o = s.handlerSaw last o := by
  cases o <;> rfl

theorem State.ret_runHandler (p : HandlerProg) (last : Nat) :
    State.runHandler p last (s.ret r) = (State.runHandler p last s).ret r := by
  induction p generalizing last s with
  | done => rfl
  | op o next ih => simp only [State.runHandler, State.ret_handlerOp, State.ret_handlerSaw, ih]
  | ask q yes no ihy ihn => simp only [State.runHandler, State.ret_answer, ihy, ihn]; split <;> rfl

theorem State.ret_dispatch (line : List Byte) : (s.ret r).dispatch line = (s.dispatch line).ret r := by
  simp only [State.dispatch, State.ret_cfg]
  split
  · exact State.ret_runHandler (s.say _) r _ _
  · exact State.ret_enqueue ((s.say _).note _) r _

theorem State.ret_feedTerm : (s.ret r).feedTerm = s.feedTerm.ret r := by
  have ht : (s.ret r).lineText = s.lineText := rfl
  simp only [State.feedTerm, ht, State.ret_line, State.ret_cfg]
  by_cases h : 0 < s.line.cursor
  · simp only [h, if_true, State.ret_dispatch, State.ret_enqueue]; rfl
  · by_cases he : s.cfg.echoEmptyTerm = true
    · simp only [h, he, if_true, if_false, State.ret_enqueue]; rfl
    · simp only [h, he, if_false]; rfl

theorem State.ret_feedErase : (s.ret r).feedErase = s.feedErase.ret r := by
  simp only [State.feedErase, State.ret_line]
  by_cases h : 0 < s.line.cursor
  · simp only [h, if_true]; exact State.ret_enqueue (s.setCursor _) r _
  · simp only [h, if_false]

theorem State.ret_feedPrint (b : Byte) : (s.ret r).feedPrint b = (s.feedPrint b).ret r := by
  have hl : (s.ret r).lineOpen = s.lineOpen := rfl
  simp only [State.feedPrint, hl]
  by_cases h : s.lineOpen = true
  · simp only [h, if_true]; exact State.ret_enqueue (s.append b) r _
  · simp only [h, Bool.false_eq_true, if_false]; rfl

theorem State.ret_feed (b : Byte) : (s.ret r).feed b = (s.feed b).ret r := by
  simp only [State.feed]
  split
  · exact s.ret_feedTerm r
  · exact s.ret_feedErase r
  · exact s.ret_feedPrint r b
  · rfl

theorem State.ret_feedAll (chunk : List Byte) : (s.ret r).feedAll chunk = (s.feedAll chunk).ret r := by
  induction chunk generalizing s with
  | nil => rfl
  | cons b bs ih => simp only [State.feedAll, State.ret_feed, ih]

/-- FEED as an instruction, where there is a framer (R141). -/
theorem exec_feedInstr (b : Byte) (hs : s.cfg.sink = .console) : exec (feedInstr b) s = .next ((s.feed b).ret .none) := by
  cases hb : byteClass b <;>
    simp [feedInstr, State.feed, hb, exec, execFeedTerm, execFeedErase, execFeedPrint, execFeedOther, ifFramer, hs]

/-- A chunk fed inside an event is that many FEED instructions (R122). -/
theorem execAll_feedInstr (chunk : List Byte) (hs : s.cfg.sink = .console) :
    ∃ u, execAll (chunk.map feedInstr) s = .next u ∧ u.ret .none = (s.feedAll chunk).ret .none := by
  induction chunk generalizing s with
  | nil => exact ⟨s, rfl, rfl⟩
  | cons b bs ih =>
    obtain ⟨u, h1, h2⟩ := ih ((s.feed b).ret .none) (by rw [State.ret_cfg, (s.feed_frame b).cfg, hs])
    refine ⟨u, ?_, ?_⟩
    · simp only [List.map_cons, execAll, exec_feedInstr s b hs, h1]
    · rw [h2, State.ret_feedAll]; rfl

end Sys2Proof.Machine
end

