-- ==== Sys2Proof/Laws/Exec.lean ====
section
/-! SUPPORT. What any instruction may do, and what a delivery asks for (spec/60_exceptions.md R187, R188, R231): said once,
for proofs over every instruction or every step. -/

namespace Sys2Proof.Machine

/-- Every instruction but the two events and GET keeps the console's frame, and hands back a result. -/
theorem exec_frame (i : Instr) (s t : State) (h : exec i s = .next t) (h1 : i ≠ .rxrdy) (h2 : i ≠ .txrdy)
    (h3 : ∀ m, i ≠ .get m) : ∃ u r, s.ConsoleFrame u ∧ t = u.ret r := by
  have ff : ∀ u : State, s.ConsoleFrame u → ifFramer s u = .next t → ∃ u r, s.ConsoleFrame u ∧ t = u.ret r := by
    intro u k e
    simp only [ifFramer] at e; split at e <;> cases e; exact ⟨u, _, k, rfl⟩
  have fc : ∀ (u : State) c, s.ConsoleFrame u → onChannel c s u = .next t →
      ∃ u r, s.ConsoleFrame u ∧ t = u.ret r := by
    intro u c k e
    simp only [onChannel] at e; split at e <;> cases e; exact ⟨u, _, k, rfl⟩
  cases i with
  | rxrdy => exact absurd rfl h1
  | txrdy => exact absurd rfl h2
  | put d => cases h; exact ⟨s.put d, _, by constructor <;> simp, rfl⟩
  | get d => exact absurd rfl (h3 d)
  | space => cases h; exact ⟨s, _, .refl s, rfl⟩
  | used => cases h; exact ⟨s, _, .refl s, rfl⟩
  | wtext d => cases h; exact ⟨_, _, s.enqueue_frame d, rfl⟩
  | feedTerm b => exact ff _ s.feedTerm_frame h
  | feedErase b => exact ff _ s.feedErase_frame h
  | feedPrint b => exact ff _ (s.feedPrint_frame b) h
  | feedOther b => exact ff _ (.refl s) h
  | dispatch l => exact ff _ (s.dispatch_frame l) h
  | tick => cases h; exact ⟨_, _, s.tick_frame, rfl⟩
  | chen c => exact fc _ c (s.chen_frame c) h
  | chdis c => exact fc _ c (s.chdis_frame c) h
  | chper c p =>
    simp only [exec, execChper] at h; split at h
    · exact fc _ c (s.chper_frame c p) h
    · cases h
  | pinset c v => exact fc _ c (s.pinset_frame c v) h

/-- A record that nothing bars may be issued, inside its call, after BOOT or by a test bench, with its notification enabled. -/
theorem State.barrier_none {s : State} {who : Issuer} {i : Instr} (h : s.barrier who i = none) :
    mayIssue who i = true ∧ s.calling = who.call ∧ (who = .bench ∨ s.booted = true) ∧ s.notified i = true := by
  simp only [State.barrier] at h
  split at h
  · cases h
  · split at h
    · cases h
    · split at h
      · cases h
      · split at h
        · cases h
        · rename_i h1 h2 h3 h4
          refine ⟨by simpa using h1, by simpa using h2, ?_, by simpa using h4⟩
          by_contra hc; apply h3; push Not at hc; simpa using hc

end Sys2Proof.Machine
end

