-- ==== Sys2Proof/Laws/PerInstr.lean ====
section
/-! SUPPORT. One fact about every instruction as syntax: the record `encode` gives begins with a header word of four bytes
whose first is the code its row of spec/opcode_table.json fixes in bits 31 to 24, and decoding looks that code up. -/

namespace Sys2Proof.Laws.Coded

/-- The row's code leads the record, and the record is the header, the `val` word where there is one, and the data. -/
def Statement (i : Instr) : Prop :=
  ∀ p : Params, (encode p i).head? = some i.opcode.code ∧
    (encode p i).length = 4 + (if i.valField.isSome then valBytes p else 0) + i.dataField.length

theorem put (data : List Byte) : Statement (.put data) := fun p => by
  simp [encode, Instr.header, Instr.opcode, Instr.valField, Instr.dataField]; omega

theorem get (most : Nat) : Statement (.get most) := fun p => by
  simp [encode, Instr.header, Instr.opcode, Instr.valField, Instr.dataField]; omega

theorem space : Statement .space := fun p => by
  simp [encode, Instr.header, Instr.opcode, Instr.valField, Instr.dataField]

theorem used : Statement .used := fun p => by
  simp [encode, Instr.header, Instr.opcode, Instr.valField, Instr.dataField]

theorem rxrdy : Statement .rxrdy := fun p => by
  simp [encode, Instr.header, Instr.opcode, Instr.valField, Instr.dataField]

theorem txrdy : Statement .txrdy := fun p => by
  simp [encode, Instr.header, Instr.opcode, Instr.valField, Instr.dataField]

theorem wtext (data : List Byte) : Statement (.wtext data) := fun p => by
  simp [encode, Instr.header, Instr.opcode, Instr.valField, Instr.dataField]; omega

theorem feedTerm (b : Byte) : Statement (.feedTerm b) := fun p => by
  simp [encode, Instr.header, Instr.opcode, Instr.valField, Instr.dataField]; omega

theorem feedErase (b : Byte) : Statement (.feedErase b) := fun p => by
  simp [encode, Instr.header, Instr.opcode, Instr.valField, Instr.dataField]; omega

theorem feedPrint (b : Byte) : Statement (.feedPrint b) := fun p => by
  simp [encode, Instr.header, Instr.opcode, Instr.valField, Instr.dataField]; omega

theorem feedOther (b : Byte) : Statement (.feedOther b) := fun p => by
  simp [encode, Instr.header, Instr.opcode, Instr.valField, Instr.dataField]; omega

theorem dispatch (line : List Byte) : Statement (.dispatch line) := fun p => by
  simp [encode, Instr.header, Instr.opcode, Instr.valField, Instr.dataField]; omega

theorem tick : Statement .tick := fun p => by
  simp [encode, Instr.header, Instr.opcode, Instr.valField, Instr.dataField]

theorem chen (ch : Nat) : Statement (.chen ch) := fun p => by
  simp [encode, Instr.header, Instr.opcode, Instr.valField, Instr.dataField]

theorem chdis (ch : Nat) : Statement (.chdis ch) := fun p => by
  simp [encode, Instr.header, Instr.opcode, Instr.valField, Instr.dataField]

theorem chper (ch period : Nat) : Statement (.chper ch period) := fun p => by
  simp [encode, Instr.header, Instr.opcode, Instr.valField, Instr.dataField]; omega

theorem pinset (ch : Nat) (level : Bool) : Statement (.pinset ch level) := fun p => by
  simp [encode, Instr.header, Instr.opcode, Instr.valField, Instr.dataField]; omega

end Sys2Proof.Laws.Coded
end

