-- ==== Sys2Proof/Laws/Tick.lean ====
section
/-! SUPPORT. What a TICK does, channel by channel, and the elapsed time it compares (spec/43_blink.md R161, R168): said once,
for proofs that would otherwise unfold the loop. -/

namespace Sys2Proof.Machine

/-- A listed channel is the one `ch[i]` reads. -/
theorem State.chan_of_getElem? {s : State} {i : Nat} {c : BlinkChannel} (h : s.ch[i]? = some c) : s.chan i = c := by
  simp [State.chan, List.getD, h]

/-- When a channel is due (R161). -/
theorem State.due_iff {s : State} {i : Nat} {c : BlinkChannel} (h : s.ch[i]? = some c) (now : Nat) :
    s.due now i = true ↔ c.enabled = true ∧ c.periodMs ≠ 0 ∧ c.periodMs ≤ elapsed s.cfg.tsW now c.lastToggle := by
  simp [State.due, State.muxSelect, State.chan_of_getElem? h, and_assoc]

/-- Everything the loop of TICK does over the channels below `n`: each due channel toggles once, by the state before the
loop, and calls `set_level` in ascending order (R161). -/
theorem State.tickUpTo_spec (s : State) (now n : Nat) :
    s.tickUpTo now n =
        { s with
          ch := (s.tickUpTo now n).ch
          pinOut := (s.tickUpTo now n).pinOut
          log := (s.tickUpTo now n).log } ∧
      (s.tickUpTo now n).ch.length = s.ch.length ∧ (s.tickUpTo now n).pinOut.length = s.pinOut.length ∧
      (∀ i, (s.tickUpTo now n).ch[i]? =
        if i < n ∧ s.due now i = true then
          s.ch[i]?.map fun c => { c with state := !c.state, lastToggle := now }
        else s.ch[i]?) ∧
      (∀ i, (s.tickUpTo now n).pinOut[i]? =
        if i < n ∧ s.due now i = true then s.pinOut[i]?.map fun _ => !(s.chan i).state else s.pinOut[i]?) ∧
      (s.tickUpTo now n).log =
        s.log ++ ((List.range n).filter fun i => s.due now i).map fun i => .setLevel i !(s.chan i).state := by
  induction n with
  | zero => refine ⟨rfl, rfl, rfl, ?_, ?_, ?_⟩ <;> simp [State.tickUpTo]
  | succ n ih =>
    obtain ⟨h1, h2, h3, h4, h5, h6⟩ := ih
    set u := s.tickUpTo now n with hu
    have hcfg : u.cfg = s.cfg := by rw [h1]
    have hchan : u.chan n = s.chan n := by
      simp only [State.chan, List.getD, h4 n]; simp
    have hdue : u.due now n = s.due now n := by simp only [State.due, State.muxSelect, hchan, hcfg]
    have hstep : s.tickUpTo now (n + 1) = u.tickChan now n := rfl
    rw [hstep, State.tickChan_eq, hdue, hchan]
    by_cases hd : s.due now n = true
    · simp only [hd, if_true]
      refine ⟨?_, ?_, ?_, ?_, ?_, ?_⟩
      · conv_lhs => rw [h1]
      · simp [h2]
      · simp [h3]
      · intro i
        rw [List.getElem?_set, h4]
        by_cases hi : n = i
        · subst hi
          simp only [if_true, h2, hd, and_true, Nat.lt_succ_self]
          by_cases hl : n < s.ch.length
          · simp [hl, State.chan_eq_getElem]
          · simp [hl]
        · simp only [hi, if_false]
          have : i < n ↔ i < n + 1 := by omega
          simp only [this]
      · intro i
        rw [List.getElem?_set, h5]
        by_cases hi : n = i
        · subst hi
          simp only [if_true, h3, hd, and_true, Nat.lt_succ_self]
          by_cases hl : n < s.pinOut.length
          · simp [hl]
          · simp [hl]
        · simp only [hi, if_false]
          have : i < n ↔ i < n + 1 := by omega
          simp only [this]
      · simp [h6, List.range_succ, List.filter_append, hd]
    · simp only [hd]
      refine ⟨h1, h2, h3, ?_, ?_, ?_⟩
      · intro i
        rw [if_neg (by simp), h4]
        by_cases hi : i = n
        · subst hi; simp [hd]
        · have : i < n ↔ i < n + 1 := by omega
          simp only [this]
      · intro i
        rw [if_neg (by simp), h5]
        by_cases hi : i = n
        · subst hi; simp [hd]
        · have : i < n ↔ i < n + 1 := by omega
          simp only [this]
      · simp [h6, List.range_succ, List.filter_append, hd]

/-- Less than a turn of the clock apart, the wrapped difference of R168 is the true one. -/
theorem elapsed_of_lt (w now last : Nat) (h1 : last ≤ now) (h2 : now < last + 2 ^ w) :
    elapsed w (now % 2 ^ w) (last % 2 ^ w) = now - last := by
  unfold elapsed
  have hp : 0 < 2 ^ w := Nat.two_pow_pos w
  generalize 2 ^ w = m at *
  rw [Nat.mod_mod]
  have a := Nat.div_add_mod now m
  have b := Nat.div_add_mod last m
  have c := Nat.mod_lt now hp
  have d := Nat.mod_lt last hp
  have e : now / m = last / m ∨ now / m = last / m + 1 := by
    have : last / m ≤ now / m := Nat.div_le_div_right h1
    have : now / m ≤ (last + m) / m := Nat.div_le_div_right h2.le
    rw [Nat.add_div_right _ hp] at this
    omega
  rcases e with e | e
  · rw [e] at a
    rw [show now % m + m - last % m = (now - last) + m by omega, Nat.add_mod_right, Nat.mod_eq_of_lt (by omega)]
  · rw [e, Nat.mul_add] at a
    rw [show now % m + m - last % m = (now - last) by omega, Nat.mod_eq_of_lt (by omega)]

end Sys2Proof.Machine
end

