-- ==== Sys2Proof/Tests/Slice0.lean ====
section
/-! SUPPORT. Tests. Expected values are those of spec/95_test_vectors.md (derived there by hand from the rules), the table of
records there, and spec/30_encoding.md; each test names its vector. At the end stands one witness for each statement that
has hypotheses: a concrete state and operands that meet them all. -/

namespace Sys2Proof.Tests

open Sys2Proof Sys2Proof.Machine

/-! ## States -/

/-- `RING_CAP = 8`, bursts of 4, `LINE_CAP = 4`, `UNKNOWN_MSG = "?"`, `SINK = CONSOLE` (vectors F1, B1, M1). -/
def console : Params := { Params.default with ringCap := 8, rxBurst := 4, txBurst := 4, lineCap := 4, unknownMsg := [0x3F#8] }

def loopback : Params := { console with sink := .loopback }

/-- `hi`, whose handler issues `WTEXT "yo"` (vector M4). -/
def hi : CommandEntry where
  name := [0x68#8, 0x69#8]
  usage := []
  handler := { cases := [], other := .op (.wtext [0x79#8, 0x6F#8]) .done }

/-- A launched console with some commands and an empty ring and line. -/
def launched (table : List CommandEntry) : State :=
  { State.resetOf { console with cmdTable := table } with rxNotifyEn := true, booted := true }

/-- Vector F1 after step 2: `wr=3 rd=2 count=1`, cells `ABC.....`. -/
def oneLeft (p : Params) : State :=
  { State.resetOf p with
    ring := { mem := [(0, 0x41#8), (1, 0x42#8), (2, 0x43#8)], wr := 3, rd := 2, count := 1 }, txNotifyEn := true }

/-- Vector B1 after step 2: the ring holds `abcdefgh`, `ijkl` waits in the transport. -/
def fullRing (p : Params) : State :=
  { State.resetOf p with
    ring :=
      { mem := [(0, 0x61#8), (1, 0x62#8), (2, 0x63#8), (3, 0x64#8), (4, 0x65#8), (5, 0x66#8), (6, 0x67#8), (7, 0x68#8)],
        wr := 0, rd := 0, count := 8 }
    rxNotifyEn := true, txNotifyEn := true, booted := true, rxq := [0x69#8, 0x6A#8, 0x6B#8, 0x6C#8] }

/-- Vector B1 after step 3: suspended. -/
def suspended (p : Params) : State := { fullRing p with rxNotifyEn := false, throttle := true }

/-- A line that holds `"ab"` (examples of R143, vector M1 after step 3). -/
def typed : State := { launched [hi] with line := { buf := [(0, 0x61#8), (1, 0x62#8)], cursor := 2 } }

/-- A full line, `"acd"` (vector M1 after step 6). -/
def lineFull : State :=
  { launched [] with line := { buf := [(0, 0x61#8), (1, 0x63#8), (2, 0x64#8)], cursor := 3 } }

/-- Channel 0 blinking with a period of 200 since 0, the clock at 0, and some readings to come (vector E6). -/
def blinking (deltas : List Nat) : State :=
  { launched [] with
    ch := [{ enabled := true, periodMs := 200, lastToggle := 0, state := false }, .reset, .reset, .reset]
    draws := { read := 0, write := 0, clock := deltas } }

/-- A state whose next record is the one given. -/
def next1 (s : State) (who : Issuer) (bytes : List Byte) : State := { s with schedule := [.record who bytes s.draws] }

/-- The state an outcome answers. -/
def after (o : Host.Outcome State Fault Refusal) : Option State :=
  match o with
  | .next t => some t
  | .fault _ | .refused _ => none

/-- Why an outcome answers no state. -/
def refusal (o : Host.Outcome State Fault Refusal) : Option Refusal :=
  match o with
  | .refused r => some r
  | .next _ | .fault _ => none

/-- Runs an instruction and looks at what it leaves. -/
def look {α : Type} (i : Instr) (s : State) (f : State → α) : Option α := (after (exec i s)).map f

/-! ## Well-formedness (R80, R83, R85): a term each check refuses -/

theorem test_wf_accepts :
    ((Instr.put [0x41#8]).wf .default && (Instr.get 2).wf .default && (Instr.feedTerm 0x0D#8).wf .default &&
      (Instr.chper 3 200).wf .default && (Instr.pinset 0 true).wf .default && Instr.tick.wf .default) = true := by decide
theorem test_wf_refuses_long_data : (Instr.put (List.replicate (2 ^ 16) 0x41#8)).wf .default = false := by
  rw [Instr.wf, dataFits, List.length_replicate]; decide
theorem test_wf_refuses_wide_value : (Instr.get (2 ^ 32)).wf .default = false := by decide
theorem test_wf_refuses_wide_period : (Instr.chper 0 (2 ^ 32)).wf .default = false := by decide
theorem test_wf_refuses_missing_channel : (Instr.chen 4).wf .default = false := by decide
theorem test_wf_refuses_channel_of_nine_bits : (Instr.chdis 256).wf { Params.default with nCh := 300 } = false := by decide
theorem test_wf_refuses_wrong_class :
    ((Instr.feedTerm 0x41#8).wf .default || (Instr.feedErase 0x0D#8).wf .default || (Instr.feedPrint 0x7F#8).wf .default ||
      (Instr.feedOther 0x20#8).wf .default) = false := by decide
theorem test_wf_refuses_byte_wider_than_the_word : (Instr.feedPrint 0x41#8).wf { Params.default with tsW := 4 } = false := by
  decide

/-! ## Decoding: the table of records in spec/95_test_vectors.md, one a row -/

theorem test_decode_put : decode .default [0x10#8, 0#8, 0#8, 3#8, 0x41#8, 0x42#8, 0x43#8] =
    .ok (.put [0x41#8, 0x42#8, 0x43#8], []) := by decide
theorem test_decode_put_nothing : decode .default [0x10#8, 0#8, 0#8, 0#8] = .ok (.put [], []) := by decide
theorem test_decode_get : decode .default [0x11#8, 0#8, 0#8, 0#8, 0#8, 0#8, 0#8, 2#8] = .ok (.get 2, []) := by decide
theorem test_decode_space : decode .default [0x12#8, 0#8, 0#8, 0#8] = .ok (.space, []) := by decide
theorem test_decode_used : decode .default [0x13#8, 0#8, 0#8, 0#8] = .ok (.used, []) := by decide
theorem test_decode_rxrdy : decode .default [0x20#8, 0#8, 0#8, 0#8] = .ok (.rxrdy, []) := by decide
theorem test_decode_txrdy : decode .default [0x21#8, 0#8, 0#8, 0#8] = .ok (.txrdy, []) := by decide
theorem test_decode_wtext : decode .default [0x22#8, 0#8, 0#8, 2#8, 0x4F#8, 0x4B#8] = .ok (.wtext [0x4F#8, 0x4B#8], []) := by
  decide
theorem test_decode_feedTerm : decode .default [0x30#8, 0#8, 0#8, 0#8, 0#8, 0#8, 0#8, 0x0D#8] = .ok (.feedTerm 0x0D#8, []) := by
  decide
theorem test_decode_feedErase : decode .default [0x30#8, 0#8, 0#8, 0#8, 0#8, 0#8, 0#8, 0x7F#8] =
    .ok (.feedErase 0x7F#8, []) := by decide
theorem test_decode_feedPrint : decode .default [0x30#8, 0#8, 0#8, 0#8, 0#8, 0#8, 0#8, 0x41#8] =
    .ok (.feedPrint 0x41#8, []) := by decide
theorem test_decode_feedOther : decode .default [0x30#8, 0#8, 0#8, 0#8, 0#8, 0#8, 0#8, 0x1B#8] =
    .ok (.feedOther 0x1B#8, []) := by decide
theorem test_decode_dispatch :
    decode .default [0x31#8, 0#8, 0#8, 8#8, 0x4C#8, 0x45#8, 0x44#8, 0x20#8, 0x31#8, 0x20#8, 0x4F#8, 0x4E#8] =
      .ok (.dispatch [0x4C#8, 0x45#8, 0x44#8, 0x20#8, 0x31#8, 0x20#8, 0x4F#8, 0x4E#8], []) := by decide
theorem test_decode_tick : decode .default [0x40#8, 0#8, 0#8, 0#8] = .ok (.tick, []) := by decide
theorem test_decode_chen : decode .default [0x41#8, 0#8, 0#8, 0#8] = .ok (.chen 0, []) := by decide
theorem test_decode_chdis : decode .default [0x42#8, 3#8, 0#8, 0#8] = .ok (.chdis 3, []) := by decide
theorem test_decode_chper : decode .default [0x43#8, 0#8, 0#8, 0#8, 0#8, 0#8, 0#8, 0xC8#8] = .ok (.chper 0 200, []) := by decide
theorem test_decode_chper_steady_on : decode .default [0x43#8, 1#8, 0#8, 0#8, 0#8, 0#8, 0#8, 0#8] = .ok (.chper 1 0, []) := by
  decide
theorem test_decode_pinset : decode .default [0x44#8, 1#8, 0#8, 0#8, 0#8, 0#8, 0#8, 1#8] = .ok (.pinset 1 true, []) := by decide

/-- The refused records of the same table. -/
theorem test_decode_refuses :
    decode .default [0x14#8, 0#8, 0#8, 0#8] = .error (.reservedOp 0x14#8) ∧
    decode .default [0#8, 0#8, 0#8, 0#8] = .error (.reservedOp 0#8) ∧
    decode .default [0x41#8, 4#8, 0#8, 0#8] = .error (.channelOutOfRange 4) ∧
    decode .default [0x30#8, 0#8, 0#8, 0#8, 0#8, 0#8, 1#8, 0x0D#8] = .error .mustBeZero ∧
    decode .default [0x44#8, 0#8, 0#8, 0#8, 0#8, 0#8, 0#8, 2#8] = .error .mustBeZero ∧
    decode .default [0x12#8, 1#8, 0#8, 0#8] = .error .mustBeZero ∧
    decode .default [0x10#8, 0#8, 0#8, 3#8, 0x41#8, 0x42#8] = .error .truncatedData := by decide
theorem test_decode_refuses_short : decode .default [0x12#8, 0#8, 0#8] = .error .truncatedHeader ∧
    decode .default [0x11#8, 0#8, 0#8, 0#8, 0#8] = .error .truncatedVal ∧
    decode { Params.default with tsW := 4 } [0x11#8, 0#8, 0#8, 0#8, 0x10#8] = .error .valTooWide := by decide

/-- The class boundaries of the same table. -/
theorem test_byte_classes :
    [0x1F#8, 0x20#8, 0x7E#8, 0x7F#8, 0x80#8, 0xFF#8, 0x00#8, 0x07#8, 0x08#8, 0x09#8, 0x0A#8, 0x0B#8, 0x0C#8, 0x0D#8,
      0x0E#8].map byteClass =
    [.other, .print, .print, .erase, .other, .other, .other, .other, .erase, .other, .term, .other, .other, .term,
      .other] := by decide

/-- The record written for GET, byte for byte (R80). -/
theorem test_encode_get : encode .default (.get 2) = [0x11#8, 0#8, 0#8, 0#8, 0#8, 0#8, 0#8, 2#8] := by decide
theorem test_encode_dispatch : encode .default (.dispatch [0x68#8, 0x69#8]) = [0x31#8, 0#8, 0#8, 2#8, 0x68#8, 0x69#8] := by
  decide

/-- A table row's word: GET's header above, `val` below (bits 63 to 32). -/
theorem test_table_word_get : decodeTableWord 64 (2 * 2 ^ 32 + 0x11000000) = some (.get 2) := by decide
theorem test_table_word_chdis : decodeTableWord 32 0x42030000 = some (.chdis 3) := by decide

/-! ## One step of each operation -/

/-- F1, step 3: the ring wraps, `K L` are dropped. -/
theorem test_put_wraps :
    look (.put [0x44#8, 0x45#8, 0x46#8, 0x47#8, 0x48#8, 0x49#8, 0x4A#8, 0x4B#8, 0x4C#8]) (oneLeft console)
      (fun t => (t.ring, t.result)) =
    some ({ mem := [(0, 0x49#8), (1, 0x4A#8), (2, 0x43#8), (3, 0x44#8), (4, 0x45#8), (5, 0x46#8), (6, 0x47#8), (7, 0x48#8)],
            wr := 2, rd := 2, count := 8 }, .count 7) := by decide
/-- F2: a ring of one byte. -/
theorem test_put_ring_of_one : look (.put [0x58#8, 0x59#8]) (.resetOf { console with ringCap := 1 })
    (fun t => (t.ring, t.result)) = some ({ mem := [(0, 0x58#8)], wr := 0, rd := 0, count := 1 }, .count 1) := by decide
/-- F1, step 5: GET across the wrap, asking for more than there is. -/
theorem test_get_wraps :
    look (.get 100)
      { oneLeft console with
        ring :=
          { mem := [(0, 0x49#8), (1, 0x4A#8), (2, 0x43#8), (3, 0x44#8), (4, 0x45#8), (5, 0x46#8), (6, 0x47#8), (7, 0x48#8)],
            wr := 2, rd := 2, count := 8 } }
      (fun t => (t.result, t.ring.wr, t.ring.rd, t.ring.count)) =
    some (.bytes [0x43#8, 0x44#8, 0x45#8, 0x46#8, 0x47#8, 0x48#8, 0x49#8, 0x4A#8], 2, 2, 0) := by decide
/-- F1, step 2: SPACE 7, USED 1. -/
theorem test_space : look .space (oneLeft console) (·.result) = some (.count 7) := by decide
theorem test_used : look .used (oneLeft console) (·.result) = some (.count 1) := by decide

/-- B1, step 3: an RXRDY that finds the ring full suspends reception and reads nothing. -/
theorem test_rxrdy_full : look .rxrdy (fullRing loopback) (fun t => (t.throttle, t.rxNotifyEn, t.txNotifyEn, t.rxq)) =
    some (true, false, true, [0x69#8, 0x6A#8, 0x6B#8, 0x6C#8]) := by decide
/-- B2: the transport returns 2 of the 4 bytes asked for. -/
theorem test_rxrdy_short_read :
    look .rxrdy
      { launched [] with
        cfg := loopback, rxq := [0x61#8, 0x62#8, 0x63#8, 0x64#8, 0x65#8, 0x66#8]
        draws := { read := 2, write := 0, clock := [] } }
      (fun t => (t.ring, t.txNotifyEn, t.rxq)) =
    some ({ mem := [(0, 0x61#8), (1, 0x62#8)], wr := 2, rd := 0, count := 2 }, true, [0x63#8, 0x64#8, 0x65#8, 0x66#8]) := by
  decide
/-- B1, step 4: TXRDY sends four bytes and resumes reception. -/
theorem test_txrdy_resumes :
    look .txrdy { suspended loopback with draws := { read := 0, write := 4, clock := [] } }
      (fun t => (t.ring.rd, t.ring.count, t.throttle, t.rxNotifyEn, t.txlog)) =
    some (4, 4, false, true, [0x61#8, 0x62#8, 0x63#8, 0x64#8]) := by decide
/-- B2: the transport takes 1 of 2 bytes; the other is lost and counted. -/
theorem test_txrdy_short_write :
    look .txrdy
      { launched [] with
        ring := { mem := [(0, 0x61#8), (1, 0x62#8)], wr := 2, rd := 0, count := 2 }
        draws := { read := 0, write := 1, clock := [] } }
      (fun t => (t.ring.rd, t.ring.count, t.txDrop, t.txlog)) = some (2, 0, 1, [0x61#8]) := by decide
/-- B3: ten bytes into a ring of eight. -/
theorem test_wtext_truncates :
    look (.wtext [0x30#8, 0x31#8, 0x32#8, 0x33#8, 0x34#8, 0x35#8, 0x36#8, 0x37#8, 0x38#8, 0x39#8]) (launched [])
      (fun t => (t.result, t.ring.count, t.putDrop, t.txNotifyEn)) = some (.count 8, 8, 2, true) := by decide
theorem test_wtext_nothing : look (.wtext []) (launched []) (fun t => (t.result, t.putDrop, t.txNotifyEn)) =
    some (.count 0, 0, false) := by decide

/-- M1, step 10: the diagnostic, then the terminator. -/
theorem test_feedTerm_unknown : look (.feedTerm 0x0D#8) lineFull (fun t => (t.content, t.line.cursor)) =
    some ([0x3F#8, 0x0D#8, 0x0A#8], 0) := by decide
/-- M4: what the handler writes comes before the terminator echo. -/
theorem test_feedTerm_handler :
    look (.feedTerm 0x0D#8) { launched [hi] with line := { buf := [(0, 0x68#8), (1, 0x69#8)], cursor := 2 } } State.content =
    some [0x79#8, 0x6F#8, 0x0D#8, 0x0A#8] := by decide
/-- R143: `FEED 7F` on `"ab"`. -/
theorem test_feedErase : look (.feedErase 0x7F#8) typed (fun t => (t.line.cursor, t.content)) =
    some (1, [0x08#8, 0x20#8, 0x08#8]) := by decide
/-- M1, step 1: an erase byte on an empty line. -/
theorem test_feedErase_empty : look (.feedErase 0x08#8) (launched []) (fun t => (t.line.cursor, t.content)) = some (0, []) := by
  decide
/-- M1, step 3, and step 7 on a full line. -/
theorem test_feedPrint : look (.feedPrint 0x63#8) typed (fun t => (t.line.buf.read 2, t.line.cursor, t.content)) =
    some (some 0x63#8, 3, [0x63#8]) := by decide
theorem test_feedPrint_full : look (.feedPrint 0x65#8) lineFull (fun t => (t.line, t.content)) = some (lineFull.line, []) := by
  decide
/-- M1, step 8. -/
theorem test_feedOther : look (.feedOther 0x09#8) lineFull (fun t => (t.line, t.content)) = some (lineFull.line, []) := by decide
/-- M2, M3: `"  HI  1 "` has the token `HI`, which the entry `hi` matches. -/
theorem test_dispatch_folds :
    look (.dispatch [0x20#8, 0x20#8, 0x48#8, 0x49#8, 0x20#8, 0x20#8, 0x31#8, 0x20#8]) (launched [hi])
      (fun t => (t.content, t.dispatched)) =
    some ([0x79#8, 0x6F#8], [([0x48#8, 0x49#8], [0x31#8, 0x20#8])]) := by decide
/-- M3: a longer token does not match. -/
theorem test_dispatch_whole_names : look (.dispatch [0x68#8, 0x69#8, 0x73#8]) (launched [hi]) State.content =
    some [0x3F#8] := by decide

/-- E6: nothing at 150, a toggle at 200. -/
theorem test_tick_early : look .tick (blinking [150]) (fun t => (t.chan 0, t.pinCalls)) =
    some ({ enabled := true, periodMs := 200, lastToggle := 0, state := false }, []) := by decide
/-- S4: the clock has wrapped; elapsed is 200. -/
theorem test_tick_wraps :
    look .tick
      { blinking [200] with
        clock := 0xFFFFFF38
        ch := [{ enabled := true, periodMs := 200, lastToggle := 0xFFFFFF38, state := false }, .reset, .reset, .reset] }
      (fun t => (t.chan 0, t.pinOut, t.pinCalls)) =
    some ({ enabled := true, periodMs := 200, lastToggle := 0, state := true }, [true, false, false, false],
      [(0, true)]) := by decide
/-- S10: `CHEN 0 @550` restarts the interval. -/
theorem test_chen : look (.chen 0) (blinking [550]) (·.chan 0) =
    some { enabled := true, periodMs := 200, lastToggle := 550, state := false } := by decide
theorem test_chen_refused : refusal (exec (.chen 4) (blinking [])) = some (.channelOutOfRange 4) := by decide
theorem test_chdis : look (.chdis 0) (blinking []) (·.chan 0) =
    some { enabled := false, periodMs := 200, lastToggle := 0, state := false } := by decide
/-- S7: a new period on a running channel. -/
theorem test_chper : look (.chper 0 50) (blinking []) (fun t => (t.chan 0, t.pinCalls)) =
    some ({ enabled := true, periodMs := 50, lastToggle := 0, state := false }, []) := by decide
/-- E7: steady on. -/
theorem test_chper_steady_on : look (.chper 0 0) (blinking []) (fun t => (t.chan 0, t.pinOut, t.pinCalls)) =
    some ({ enabled := false, periodMs := 0, lastToggle := 0, state := true }, [true, false, false, false], [(0, true)]) := by
  decide
/-- S6: `PINSET 0, 1` from reset. -/
theorem test_pinset : look (.pinset 0 true) .reset (fun t => (t.chan 0, t.pinOut)) =
    some ({ enabled := false, periodMs := 0, lastToggle := 0, state := true }, [true, false, false, false]) := by decide

/-! ## Delivery -/

/-- A refused record has no step (R83). -/
theorem test_step_refuses_reserved :
    refusal (step (next1 (launched []) .bench [0x14#8, 0#8, 0#8, 0#8])) =
    some (.badRecord (.reservedOp 0x14#8)) := by decide
/-- B6: no RXRDY is delivered while reception is suspended (R187). -/
theorem test_step_refuses_masked_event :
    refusal (step (next1 (suspended loopback) .transport [0x20#8, 0#8, 0#8, 0#8])) = some .notificationDisabled := by decide
/-- The transport's fault ends the run (R185, U3). -/
theorem test_step_stuck : step { State.reset with schedule := [.transportFault] } = .fault .nonRecoverableTransport := rfl
/-- The first step after reset runs the placed record. -/
theorem test_first_step_chen : (after (step (State.reset.withFetchWord 32 0x41030000))).map (fun t => (t.chan 3).enabled) =
    some true := by decide
theorem test_first_step_txrdy : (after (step (State.reset.withFetchWord 32 0x21000000))).map (·.txNotifyEn) =
    some false := by decide

/-- The word of a FEED record runs as its first step after reset, though FEED is a call inside an event (log 6). -/
theorem test_first_step_feed : (after (step (State.reset.withFetchWord 64 (0x41 * 2 ^ 32 + 0x30000000)))).map (·.line.cursor) =
    some 1 := by decide
/-- No test bench issues WTEXT, FEED or DISPATCH (R87). -/
theorem test_step_refuses_bench_calls :
    [[0x22#8, 0#8, 0#8, 0#8], [0x30#8, 0#8, 0#8, 0#8, 0#8, 0#8, 0#8, 0x41#8], [0x31#8, 0#8, 0#8, 0#8]].map
      (fun bytes => refusal (step (next1 (launched []) .bench bytes))) =
    [some (.issuerNotAllowed .bench), some (.issuerNotAllowed .bench), some (.issuerNotAllowed .bench)] := by decide
/-- E5 of R231: a handler does not act after its return; nor does a tick come while it runs (C11 of spec/90_conflicts.md). -/
theorem test_step_refuses_outside_call :
    refusal (step (next1 (launched []) .handler [0x41#8, 0#8, 0#8, 0#8])) = some (.outsideItsCall .handler) ∧
      refusal (step (next1 { launched [] with calling := some .handler } .timer [0x40#8, 0#8, 0#8, 0#8])) =
        some (.outsideItsCall .timer) := by decide
/-- R226: no BOOT after a PUT, or after a BOOT. -/
theorem test_step_refuses_late_boot :
    refusal (step { oneLeft console with schedule := [.boot [hi] []] }) = some .notAtReset ∧
      refusal (step { launched [] with schedule := [.boot [hi] []] }) = some .alreadyBooted := by decide

/-! ## Witnesses: a state and operands that meet all the hypotheses of a statement, at the boundary of each clause -/

theorem test_witness_SpaceReportsFreeBytes : (fullRing loopback).RingInv ∧ State.reset.RingInv := by decide
theorem test_witness_UsedReportsQueuedBytes : (fullRing loopback).RingInv := by decide
theorem test_witness_RingAccountingIsExact :
    (fullRing loopback).RingInv ∧ (State.resetOf { console with ringCap := 1 }).RingInv := by decide
theorem test_witness_RingIsQueue : (oneLeft console).RingInv ∧ (fullRing loopback).RingInv := by decide
/-- E1: `AB`, nothing, `CDE`, `FGH` into a ring of eight. -/
theorem test_witness_PutsWithinCapacityComeBackInOrder :
    (launched []).RingInv ∧ (launched []).ring.count = 0 ∧
      [[0x41#8, 0x42#8], [], [0x43#8, 0x44#8, 0x45#8], [0x46#8, 0x47#8, 0x48#8]].flatten.length ≤
        (launched []).cfg.ringCap := by decide
theorem test_witness_RingHasOneProducerAndOneConsumer :
    (after (exec (.put [0x41#8]) (oneLeft console))).isSome = true ∧ (after (exec (.get 1) (oneLeft console))).isSome = true ∧
      (after (exec .txrdy (oneLeft console))).isSome = true ∧ (after (exec .tick (oneLeft console))).isSome = true := by decide
theorem test_witness_RxrdyOnFullRingSuspends :
    (fullRing loopback).cfg.ringCap - (fullRing loopback).ring.count = 0 := by decide
theorem test_witness_RxrdyQueuesWhatItReadsInLoopback :
    (oneLeft loopback).RingInv ∧ (oneLeft loopback).cfg.sink = .loopback ∧
      (oneLeft loopback).cfg.ringCap - (oneLeft loopback).ring.count ≠ 0 := by decide
theorem test_witness_RxrdyFeedsEachByteInConsole :
    (launched [hi]).cfg.sink = .console ∧ (launched [hi]).cfg.ringCap - (launched [hi]).ring.count ≠ 0 := by decide
theorem test_witness_NoReadAsksForMoreThanSpace :
    (launched [hi]).cfg.wf ∧ (after (exec .rxrdy (launched [hi]))).isSome = true ∧
      (after (exec .tick (launched [hi]))).isSome = true := by decide
theorem test_witness_TxrdyOnEmptyRingDisablesTransmit : (launched []).RingInv ∧ (launched []).ring.count = 0 := by decide
theorem test_witness_TxrdySendsOldestBytesAndResumes :
    (suspended loopback).cfg.wf ∧ (suspended loopback).RingInv ∧ 0 < (suspended loopback).ring.count := by decide
theorem test_witness_ThrottleChangesOnlyByFullReceiveOrDrain :
    (after (exec .rxrdy (fullRing loopback))).map (fun t => (t.throttle, t.rxNotifyEn)) = some (true, false) ∧
      (after (exec .txrdy (suspended loopback))).map (fun t => (t.throttle, t.rxNotifyEn)) = some (false, true) ∧
      (after (exec .tick (suspended loopback))).map (·.throttle) = some true := by decide
theorem test_witness_SuspendedBridgeResumesOnDrain :
    (suspended loopback).Inv ∧ (suspended loopback).BridgeInv ∧ (suspended loopback).throttle = true := by decide
/-- An RXRDY that finds the ring full, delivered: the record is no PUT and no GET. -/
theorem test_witness_BridgeInvariantsKeptByEverySystemStep :
    (fullRing loopback).Inv ∧ (fullRing loopback).BridgeInv ∧
      decode loopback [0x20#8, 0#8, 0#8, 0#8] = .ok (.rxrdy, []) ∧
      (after (step (next1 (fullRing loopback) .transport [0x20#8, 0#8, 0#8, 0#8]))).isSome = true := by decide
/-- B1: a read, then a write that is not cut short. -/
theorem test_witness_LoopbackKeepsEveryByteInOrder :
    (fullRing loopback).Inv ∧ (fullRing loopback).cfg.sink = .loopback ∧
      ∀ e ∈ ([(.txrdy, { read := 0, write := 4, clock := [] }), (.rxrdy, { read := 4, write := 0, clock := [] })] :
          List (Instr × Draws)),
        e.1 = .rxrdy ∨ (e.1 = .txrdy ∧ (fullRing loopback).cfg.txBurst ≤ e.2.write) := by decide

theorem test_witness_FeedPrintStoresAndEchoes :
    (typed.cfg.sink = .console ∧ typed.line.cursor < typed.cfg.lineCap - 1) ∧
      lineFull.cfg.sink = .console ∧ ¬lineFull.line.cursor < lineFull.cfg.lineCap - 1 := by decide
theorem test_witness_FeedEraseStepsBackAndEchoes :
    (typed.cfg.sink = .console ∧ 0 < typed.line.cursor) ∧ (launched []).cfg.sink = .console ∧
      (launched []).line.cursor = 0 := by decide
theorem test_witness_FeedOtherChangesNothing : typed.cfg.sink = .console := by decide
theorem test_witness_FeedTermOnEmptyLineDispatchesNothing :
    ((launched []).cfg.sink = .console ∧ (launched []).line.cursor = 0 ∧ (launched []).cfg.echoEmptyTerm = true ∧
      (after (exec (.feedTerm 0x0D#8) (launched []))).isSome = true) ∧
      (State.resetOf { console with echoEmptyTerm := false }).cfg.sink = .console ∧
      (State.resetOf { console with echoEmptyTerm := false }).line.cursor = 0 ∧
      (State.resetOf { console with echoEmptyTerm := false }).cfg.echoEmptyTerm = false := by decide
theorem test_witness_FeedTermDispatchesThenEchoesThenClears :
    typed.cfg.sink = .console ∧ 0 < typed.line.cursor ∧ [0x61#8, 0x62#8].length = typed.line.cursor ∧
      ∀ i < [0x61#8, 0x62#8].length, typed.line.buf.read i = [0x61#8, 0x62#8][i]? := by decide
theorem test_witness_TypedLineIsDispatchedOnce :
    (launched [hi]).Inv ∧ (launched [hi]).cfg.sink = .console ∧ (launched [hi]).line.cursor = 0 ∧
      [0x48#8, 0x69#8] ≠ [] ∧ ∀ c ∈ [0x48#8, 0x69#8], byteClass c = .print := by decide
theorem test_witness_UnknownCommandQueuesDiagnostic :
    (launched [hi]).cfg.sink = .console ∧ ∀ e ∈ (launched [hi]).cfg.cmdTable, fold e.name ≠ fold (tokenOf [0x68#8]) := by
  decide
/-- `Hi` matches the second entry and not the first. -/
theorem test_witness_FirstMatchingHandlerRunsItsOperations :
    (launched [{ hi with name := [0x68#8] }, hi]).cfg.sink = .console ∧
      (launched [{ hi with name := [0x68#8] }, hi]).cfg.cmdTable = [{ hi with name := [0x68#8] }] ++ hi :: [] ∧
      fold hi.name = fold (tokenOf [0x48#8, 0x69#8]) ∧
      ∀ x ∈ [{ hi with name := [0x68#8] }], fold x.name ≠ fold (tokenOf [0x48#8, 0x69#8]) := by decide
theorem test_witness_LineSplitsIntoTokenAndArguments :
    argsOf [0x4C#8, 0x20#8, 0x31#8] = [0x31#8] ∧ tokenOf [0x20#8] = [] ∧ argsOf [0x20#8] = [] := by decide
theorem test_witness_LookupIsFirstCaseInsensitiveMatch : findEntry [hi] [0x48#8, 0x49#8] = some hi ∧ tableOk [hi] = true := by
  decide
theorem test_witness_ConsoleLeavesThrottleAndTransportAlone :
    (Instr.feedTerm 0x0D#8).opcode = .feed ∧ (after (exec (.feedTerm 0x0D#8) lineFull)).isSome = true ∧
      (after (exec (.dispatch [0x68#8]) lineFull)).isSome = true ∧
      (after (exec (.wtext [0x68#8]) { lineFull with txNotifyEn := true })).isSome = true := by decide
theorem test_witness_FramerIsAbsentInLoopback :
    (fullRing loopback).cfg.sink = .loopback ∧ (Instr.feedOther 0#8).opcode = .feed ∧
      (Instr.dispatch []).opcode = .dispatch := by decide

/-- One channel due, one not (R161). -/
theorem test_witness_TickTogglesExactlyTheDueChannels :
    (blinking [200]).ChanInv ∧ (blinking [200]).ch[0]? = some ((blinking [200]).chan 0) ∧
      (blinking [200]).due (blinking [200]).now 0 = true ∧ (blinking [199]).due (blinking [199]).now 0 = false ∧
      (blinking [200]).ch[3]? = some .reset := by decide
theorem test_witness_TickCallsSetLevelInAscendingOrder :
    (blinking [200]).ChanInv ∧ (after (exec .tick (blinking [200]))).isSome = true := by decide
/-- S4, with the last toggle at FFFFFF38 and the clock past its wrap. -/
theorem test_witness_TickMeasuresTrueElapsedTimeAcrossWrap :
    let c : BlinkChannel := { enabled := true, periodMs := 200, lastToggle := 0xFFFFFF38, state := false }
    let s : State := { blinking [1] with clock := 0x100000000 - 1, ch := [c, .reset, .reset, .reset] }
    s.ChanInv ∧ s.ch[0]? = some c ∧ c.enabled = true ∧ c.periodMs ≠ 0 ∧ c.lastToggle = 0xFFFFFF38 % 2 ^ s.cfg.tsW ∧
      0xFFFFFF38 ≤ s.clock + s.draws.clock.headD 0 ∧ s.clock + s.draws.clock.headD 0 < 0xFFFFFF38 + 2 ^ s.cfg.tsW := by
  decide
theorem test_witness_ChenEnablesAndRestartsInterval :
    3 < (blinking [5]).cfg.nCh ∧ (blinking [5]).ch[3]? = some .reset := by decide
theorem test_witness_ChdisClearsEnabledOnly :
    0 < (blinking []).cfg.nCh ∧ (blinking []).ch[0]? = some ((blinking []).chan 0) := by decide
theorem test_witness_ChperStoresPeriodOnly :
    3 < (blinking []).cfg.nCh ∧ 2 ^ 32 - 1 < 2 ^ (blinking []).cfg.tsW ∧ 2 ^ 32 - 1 ≠ 0 ∧ (blinking []).ch[3]? = some .reset := by
  decide
theorem test_witness_ChperZeroIsSteadyOn :
    0 < (blinking []).cfg.nCh ∧ (blinking []).ch[0]? = some ((blinking []).chan 0) := by decide
theorem test_witness_PinsetDrivesPinAndState : 3 < (blinking []).cfg.nCh ∧ (blinking []).ch[3]? = some .reset := by decide
/-- Channel 4 of 4; the periods at the limit, on a channel that exists and on one that does not. -/
theorem test_witness_CommandOnMissingChannelIsRefused :
    (blinking []).cfg.nCh ≤ 4 ∧ 3 < (blinking []).cfg.nCh ∧ 2 ^ 32 - 1 < 2 ^ (blinking []).cfg.tsW ∧
      2 ^ (blinking []).cfg.tsW ≤ 2 ^ 32 ∧
      refusal (exec (.chper 3 (2 ^ 32)) (blinking [])) = some (.valueTooWide (2 ^ 32)) := by decide
/-- S8: enabled out of reset with period 0; and a channel disabled with a period. -/
theorem test_witness_UnselectedChannelOutlastsAnyTicks :
    ((launched []).ChanInv ∧ (launched []).muxSelect 0 = false) ∧
      (let s : State := { launched [] with
        ch := [{ enabled := true, periodMs := 0, lastToggle := 5, state := false },
          { enabled := false, periodMs := 7, lastToggle := 0, state := false }, .reset, .reset] }
      s.ChanInv ∧ s.muxSelect 0 = false ∧ s.muxSelect 1 = false) := by decide
theorem test_witness_ContextsShareOnlyTheChannels :
    (after (exec .txrdy (fullRing loopback))).isSome = true ∧ (after (exec .rxrdy (fullRing loopback))).isSome = true ∧
      (fullRing loopback).cfg.sink = .loopback ∧ (after (exec (.chen 0) (fullRing loopback))).isSome = true := by decide

theorem test_witness_NoOperationWritesParametersOrTurnsClockBack :
    (after (exec (.chen 0) (blinking [7]))).map (·.clock) = some 7 := by decide
theorem test_witness_InvariantsKeptByEveryStep :
    typed.Inv ∧ (after (step (next1 { typed with calling := some .bridge } .bridge
      [0x30#8, 0#8, 0#8, 0#8, 0#8, 0#8, 0#8, 0x0D#8]))).isSome = true := by decide
/-- A bench's TICK before BOOT, the transport's RXRDY after it, and a handler's CHEN inside its call. -/
theorem test_witness_StepRunsTheDecodedInstruction :
    (decode State.reset.cfg [0x40#8, 0#8, 0#8, 0#8] = .ok (.tick, []) ∧ mayIssue .bench .tick = true ∧
      State.reset.calling = Issuer.bench.call) ∧
    (decode (launched []).cfg [0x20#8, 0#8, 0#8, 0#8, 7#8] = .ok (.rxrdy, [7#8]) ∧ mayIssue .transport .rxrdy = true ∧
      (launched []).calling = Issuer.transport.call ∧ (launched []).booted = true ∧ (launched []).rxNotifyEn = true) ∧
    decode (launched []).cfg [0x41#8, 3#8, 0#8, 0#8] = .ok (.chen 3, []) ∧ mayIssue .handler (.chen 3) = true ∧
      some Issuer.handler = Issuer.handler.call := by decide
/-- A record that does not decode; a handler's TICK; a handler's CHEN with no call running and a timer's TICK inside a call;
a timer's TICK before BOOT; both events with their notification off. -/
theorem test_witness_DeliveryOutsideTheRulesIsRefused :
    decode (launched []).cfg [] = .error .truncatedHeader ∧ mayIssue .handler .tick = false ∧
      (mayIssue .handler (.chen 0) = true ∧ (launched []).calling ≠ Issuer.handler.call ∧
        mayIssue .timer .tick = true ∧ some Issuer.handler ≠ Issuer.timer.call) ∧
      (mayIssue .timer .tick = true ∧ State.reset.calling = Issuer.timer.call ∧ Issuer.timer ≠ .bench ∧
        State.reset.booted = false) ∧
      (mayIssue .transport .rxrdy = true ∧ (suspended loopback).calling = Issuer.transport.call ∧
        (suspended loopback).booted = true ∧ (suspended loopback).rxNotifyEn = false) ∧
      mayIssue .transport .txrdy = true ∧ (launched []).calling = Issuer.transport.call ∧ (launched []).booted = true ∧
        (launched []).txNotifyEn = false := by decide
/-- One operation of each row of the table. -/
theorem test_witness_IssuersAndContextsFollowTheTable :
    [Instr.put [], .used, .txrdy, .wtext [], .feedOther 0#8, .dispatch [], .tick, .pinset 0 true].map Instr.opcode =
      [.put, .used, .txrdy, .wtext, .feed, .dispatch, .tick, .pinset] := by decide
/-- RESET and BOOT from a suspended bridge; two bytes arrive behind the four that wait. -/
theorem test_witness_ResetThenBootGivesLaunchState :
    ((suspended loopback).cfg.wf ∧ tableOk [hi] = true) ∧
      (after (step { suspended loopback with schedule := [.arrive [0x6D#8, 0x6E#8]] })).map (·.rxq) =
        some [0x69#8, 0x6A#8, 0x6B#8, 0x6C#8, 0x6D#8, 0x6E#8] := by decide
/-- An RXRDY, a TICK of the timer, a PUT of a bench, and nothing left to deliver. -/
theorem test_witness_StepsAreWholeEventsAndTicks :
    (launched []).calling = none ∧ (after (step (next1 (launched []) .transport [0x20#8, 0#8, 0#8, 0#8]))).isSome = true ∧
      (after (step (next1 (launched []) .timer [0x40#8, 0#8, 0#8, 0#8]))).isSome = true ∧
      (after (step (next1 .reset .bench [0x10#8, 0#8, 0#8, 1#8, 0x41#8]))).isSome = true ∧
      (after (step (launched []))).isSome = true := by decide
/-- After BOOT; a ring that holds a byte; a command without a name; and reset with one command. -/
theorem test_witness_BootRunsOnceFromTheResetState :
    (launched []).booted = true ∧ ((oneLeft console).booted = false ∧ (oneLeft console).atReset = false) ∧
      (State.reset.booted = false ∧ State.reset.atReset = true) ∧ tableOk [{ hi with name := [] }] = false ∧
      tableOk [hi] = true := by decide
theorem test_witness_DecodeUndoesEncode : console.wf ∧ (Instr.chper 3 200).wf console = true := by decide
theorem test_witness_DecodedRecordIsTheEncoding :
    console.wf ∧ decode console [0x44#8, 3#8, 0#8, 0#8, 0#8, 0#8, 0#8, 1#8, 9#8] = .ok (.pinset 3 true, [9#8]) := by decide
theorem test_witness_OnlyTheFourteenCodesDecode : ∀ o : Opcode, o.code ≠ 0x14#8 := by intro o; cases o <;> decide
theorem test_witness_MalformedRecordsAreRefused :
    (Opcode.put.format ≠ .C ∧ Opcode.put.format ≠ .CV ∧ (1#8 : Byte) ≠ 0#8) ∧ (Opcode.tick.format ≠ .D ∧ (1#8 : Byte) ≠ 0#8) ∧
      (Opcode.chen.format = .C ∧ console.nCh ≤ (4#8 : Byte).toNat) ∧
      (Opcode.wtext.format = .D ∧ [0x41#8].length < (0#8 : Byte).toNat * 256 + (2#8 : Byte).toNat) ∧
      (Opcode.feed.format = .B ∧ [0#8, 0#8, 0#8].length < valBytes console) ∧
      (Opcode.chper.format = .CV ∧ (3#8 : Byte).toNat < console.nCh ∧ [0#8, 0#8, 0#8].length < valBytes console) ∧
      (256 < 256 ^ valBytes console ∧ 2 ^ 8 ≤ 256 ∧ 256 < 2 ^ console.tsW) ∧
      (2 < 256 ^ valBytes console ∧ 2 ≤ 2 ∧ 2 < 2 ^ console.tsW ∧ (3#8 : Byte).toNat < console.nCh) ∧
      16 < 256 ^ valBytes { console with tsW := 4 } ∧ 2 ^ { console with tsW := 4 }.tsW ≤ 16 := by decide
theorem test_witness_FeedByteSelectsItsRow : 8 ≤ console.tsW ∧ 8 ≤ { console with tsW := 8 }.tsW := by decide

end Sys2Proof.Tests
end

section
/-! PROOFS. The ring's statements (spec/40_fifo.md R102 to R105): each of the four operations as an equation, the free space
and the bounds reached, and from these what GET, SPACE, USED and the accounting identity say. -/

namespace Sys2Proof.Machine

variable (s : State)

/-! The four operations as equations -/

theorem exec_put (data : List Byte) : exec (.put data) s = .next ((s.put data).ret (.count (s.accepts data))) := rfl

theorem exec_get (most : Nat) : exec (.get most) s = .next ((s.pop most).ret (.bytes (s.front most))) := rfl

theorem exec_space : exec .space s = .next (s.ret (.count s.space)) := rfl

theorem exec_used : exec .used s = .next (s.ret (.count s.ring.count)) := rfl

/-! What the invariant says of the counts and the cursors -/

variable {s}

theorem State.RingInv.count_le_ringCap (h : s.RingInv) : s.ring.count ≤ s.cfg.ringCap := by
  obtain ⟨-, -, hcount, -⟩ := h
  exact hcount

theorem State.RingInv.wr_lt_ringCap (h : s.RingInv) : s.ring.wr < s.cfg.ringCap := by
  obtain ⟨-, -, -, hwr, -⟩ := h
  exact hwr

theorem State.RingInv.rd_lt_ringCap (h : s.RingInv) : s.ring.rd < s.cfg.ringCap := by
  obtain ⟨-, -, -, -, hrd, -⟩ := h
  exact hrd

/-- The accounting identity (R105). -/
theorem State.RingInv.count_add_space (h : s.RingInv) : s.ring.count + s.space = s.cfg.ringCap :=
  Nat.add_sub_cancel' h.count_le_ringCap

/-- The free space is 0 exactly when the ring is *full* (R42, R103). -/
theorem State.RingInv.space_eq_zero_iff (h : s.RingInv) : s.space = 0 ↔ s.full = true := by
  have hsum := h.count_add_space
  rw [State.full, beq_iff_eq]
  omega

/-- The free space is the whole capacity exactly when the ring is *empty* (R42, R103). -/
theorem State.RingInv.space_eq_ringCap_iff (h : s.RingInv) : s.space = s.cfg.ringCap ↔ s.empty = true := by
  have hsum := h.count_add_space
  rw [State.empty, beq_iff_eq]
  omega

/-- A cursor of a one-byte ring is 0 (R105). -/
theorem State.RingInv.cursors_eq_zero (h : s.RingInv) (hcap : s.cfg.ringCap = 1) : s.ring.wr = 0 ∧ s.ring.rd = 0 := by
  have hwr := h.wr_lt_ringCap
  have hrd := h.rd_lt_ringCap
  omega

/-! When PUT and GET reach their bounds -/

variable (s)

theorem State.accepts_eq_length_iff (data : List Byte) : s.accepts data = data.length ↔ data.length ≤ s.space :=
  min_eq_left_iff

theorem State.length_front_eq_iff (most : Nat) : (s.front most).length = most ↔ most ≤ s.ring.count := by
  rw [State.length_front, min_eq_left_iff]

theorem State.pop_ring_count_add_length_front (most : Nat) :
    (s.pop most).ring.count + (s.front most).length = s.ring.count := by
  rw [State.length_front, State.pop_ring_count]
  exact Nat.sub_add_cancel (Nat.min_le_right ..)

/-- A byte GET hands back is the one its cell holds, where that cell has been written (R102, R64). -/
theorem State.getElem?_front_of_read {most i : Nat} (hi : i < min most s.ring.count) {b : Byte}
    (hb : s.ring.mem.read ((s.ring.rd + i) % s.cfg.ringCap) = some b) : (s.front most)[i]? = some b := by
  rw [State.getElem?_front, if_pos hi, s.ringCell_of_read hb]

/-- PUT's result and its effect on count and cursors stay within their ranges (R101, R105). -/
theorem exec_put_accounts (h : s.RingInv) (data : List Byte) : ∃ v : State, ∃ n, exec (.put data) s = .next v ∧
    v.result = .count n ∧ n ≤ data.length ∧ (n = data.length ↔ data.length ≤ s.space) ∧
    v.ring.count = s.ring.count + n ∧ v.ring.count ≤ s.cfg.ringCap ∧
    v.ring.wr = (s.ring.wr + n) % s.cfg.ringCap ∧ v.ring.wr < s.cfg.ringCap ∧ v.ring.rd = s.ring.rd :=
  have hput := s.ringInv_put h data
  ⟨_, _, exec_put s data, rfl, s.accepts_le_length data, s.accepts_eq_length_iff data, rfl, hput.count_le_ringCap, rfl,
    hput.wr_lt_ringCap, rfl⟩

/-- GET's result and its effect on count and cursors stay within their ranges (R102, R105). -/
theorem exec_get_accounts (h : s.RingInv) (most : Nat) : ∃ v : State, ∃ data, exec (.get most) s = .next v ∧
    v.result = .bytes data ∧ data.length ≤ most ∧ (data.length = most ↔ most ≤ s.ring.count) ∧
    v.ring.count + data.length = s.ring.count ∧
    v.ring.rd = (s.ring.rd + data.length) % s.cfg.ringCap ∧ v.ring.rd < s.cfg.ringCap ∧ v.ring.wr = s.ring.wr := by
  have hpop := s.ringInv_pop h most
  refine ⟨_, _, exec_get s most, rfl, ?_, s.length_front_eq_iff most, s.pop_ring_count_add_length_front most, ?_,
    hpop.rd_lt_ringCap, rfl⟩
  · rw [State.length_front]
    exact Nat.min_le_left ..
  · rw [State.length_front]
    rfl

/-- Settles O5: PUT and GET keep the ring's invariant, which bounds the count and both cursors, and USED and SPACE are the
two parts of the capacity. -/
theorem ringAccountingIsExact : Obligations.RingAccountingIsExact := fun s h =>
  ⟨⟨_, _, _, _, exec_used s, rfl, exec_space s, rfl, h.count_add_space, exec_put_accounts s h, exec_get_accounts s h⟩,
    h.cursors_eq_zero⟩

/-- Settles O2: what GET hands back is `State.front`, and the state after is `State.pop` with that result. -/
theorem getRemovesAndReturnsOldestBytes : Obligations.GetRemovesAndReturnsOldestBytes :=
  ⟨rfl, rfl, fun s most =>
    ⟨s.front most, s.length_front most, fun _ hi _ hb => s.getElem?_front_of_read hi hb, exec_get s most⟩⟩

/-- Settles O3: SPACE answers `State.space`, whose extremes are the full and the empty ring. -/
theorem spaceReportsFreeBytes : Obligations.SpaceReportsFreeBytes :=
  ⟨rfl, rfl, fun s => ⟨exec_space s, fun h => ⟨Nat.sub_le .., h.space_eq_zero_iff, h.space_eq_ringCap_iff⟩⟩⟩

/-- Settles O4: USED answers the count, which the ring's invariant bounds. -/
theorem usedReportsQueuedBytes : Obligations.UsedReportsQueuedBytes :=
  ⟨rfl, rfl, fun s => ⟨exec_used s, fun h => h.count_le_ringCap⟩⟩

end Sys2Proof.Machine
end

section
/-! PROOFS. The line editor's statements (spec/42_framer.md R143 to R145): what a printable and an erase byte do to the line
in each case, and what FEED of each class of byte other than a terminator answers where there is a framer. -/

namespace Sys2Proof.Machine

section
variable (s : State)

/-! The two cases of each edit -/

theorem State.feedPrint_of_lt (b : Byte) (h : s.line.cursor < s.cfg.lineCap - 1) :
    s.feedPrint b = (s.append b).enqueue [b] :=
  if_pos (decide_eq_true h)

theorem State.feedPrint_of_not_lt (b : Byte) (h : ¬s.line.cursor < s.cfg.lineCap - 1) :
    s.feedPrint b = s.note .capacityOverflow :=
  if_neg (mt of_decide_eq_true h)

theorem State.feedErase_of_pos (h : 0 < s.line.cursor) :
    s.feedErase = (s.setCursor (s.line.cursor - 1)).enqueue eraseEcho :=
  if_pos h

theorem State.feedErase_of_eq_zero (h : s.line.cursor = 0) : s.feedErase = s :=
  if_neg h.not_gt

/-! FEED and WTEXT as equations -/

theorem exec_wtext (data : List Byte) : exec (.wtext data) s = .next ((s.enqueue data).ret (.count (s.accepts data))) := rfl

variable {s}

theorem ifFramer_of_console (hs : s.cfg.sink = .console) (t : State) : ifFramer s t = .next (t.ret .none) := by
  rw [ifFramer, hs]

theorem exec_feedPrint (hs : s.cfg.sink = .console) (b : Byte) :
    exec (.feedPrint b) s = .next ((s.feedPrint b).ret .none) :=
  ifFramer_of_console hs _

theorem exec_feedErase (hs : s.cfg.sink = .console) (b : Byte) : exec (.feedErase b) s = .next (s.feedErase.ret .none) :=
  ifFramer_of_console hs _

theorem exec_feedOther (hs : s.cfg.sink = .console) (b : Byte) : exec (.feedOther b) s = .next (s.ret .none) :=
  ifFramer_of_console hs _

end

/-- Settles O21: on an open line the witness is the line of `State.append`, and WTEXT's result is the one thing of the echo
that FEED does not hand back. -/
theorem feedPrintStoresAndEchoes : Obligations.FeedPrintStoresAndEchoes := by
  intro s b hs
  rw [exec_feedPrint hs]
  constructor
  · intro hopen
    rw [s.feedPrint_of_lt b hopen]
    exact ⟨(s.append b).line, _, rfl, Memory.read_write_same .., fun _ ha => Memory.read_write_other _ b ha,
      exec_wtext (s.append b) [b], rfl⟩
  · intro hfull
    rw [s.feedPrint_of_not_lt b hfull]
    rfl

/-- Settles O22: an erase byte is `State.feedErase` whichever it is, by whether there is a byte to take back. -/
theorem feedEraseStepsBackAndEchoes : Obligations.FeedEraseStepsBackAndEchoes := by
  intro s b hs
  rw [exec_feedErase hs]
  constructor
  · intro hpos
    rw [s.feedErase_of_pos hpos]
    exact ⟨_, exec_wtext (s.setCursor (s.line.cursor - 1)) eraseEcho, rfl⟩
  · intro hzero
    rw [s.feedErase_of_eq_zero hzero]
    rfl

/-- Settles O23: FEED of any other byte hands back no result and does nothing else. -/
theorem feedOtherChangesNothing : Obligations.FeedOtherChangesNothing := fun _ b hs => exec_feedOther hs b

end Sys2Proof.Machine
end

section
/-! PROOFS. The records' statements (spec/30_encoding.md R80 to R85): what stands behind a header, format by format, in both
directions, and from these the round trip, the codes, the refusals, the rows of FEED and the records the spec writes out. -/

namespace Sys2Proof

/-! What follows the header -/

/-- The bytes of a record behind its header word: the `val` word, then the data (R80). -/
def Instr.operands (p : Params) (i : Instr) : List Byte := (i.valField.elim [] (natBE (valBytes p))) ++ i.dataField

theorem encode_eq_header_append_operands (p : Params) (i : Instr) : encode p i = i.header ++ i.operands p := by
  simp only [encode, Instr.operands, List.append_assoc]
  cases i.valField <;> rfl

@[simp] theorem decode_code_cons (p : Params) (o : Opcode) (ch hi lo : Byte) (body : List Byte) :
    decode p (o.code :: ch :: hi :: lo :: body) = decodeBody p o ch.toNat (beNat [hi, lo]) body := by
  simp [decode]

/-- Decoding an encoded record is decoding its operands under its own header, where the header's fields fit. -/
theorem decode_encode_append (p : Params) (i : Instr) (after : List Byte) (hch : i.chField < 2 ^ 8)
    (hlen : i.dataField.length < 2 ^ 16) :
    decode p (encode p i ++ after) = decodeBody p i.opcode i.chField i.dataField.length (i.operands p ++ after) := by
  have hch' : (BitVec.ofNat 8 i.chField).toNat = i.chField := Nat.mod_eq_of_lt hch
  have hlen' : beNat (natBE 2 i.dataField.length) = i.dataField.length := beNat_natBE_of_lt hlen
  rw [encode_eq_header_append_operands, List.append_assoc]
  calc decode p (i.header ++ (i.operands p ++ after))
      = decodeBody p i.opcode (BitVec.ofNat 8 i.chField).toNat (beNat (natBE 2 i.dataField.length))
          (i.operands p ++ after) := decode_code_cons ..
    _ = _ := by rw [hch', hlen']

theorem Instr.wf_chField {p : Params} {i : Instr} (h : i.wf p = true) : i.chField < 2 ^ 8 := by
  cases i <;> simp_all [Instr.wf, chanFits, Instr.chField]

theorem Instr.wf_dataField {p : Params} {i : Instr} (h : i.wf p = true) : i.dataField.length < 2 ^ 16 := by
  cases i <;> simp_all [Instr.wf, dataFits, Instr.dataField]

/-! What each format accepts -/

theorem Except.map_eq_ok_iff {ε α β : Type} {f : α → β} {x : Except ε α} {r : β} :
    x.map f = .ok r ↔ ∃ v, x = .ok v ∧ f v = r := by
  cases x <;> simp [Except.map]

section
variable {p : Params} {o : Opcode} {ch len : Nat} {body : List Byte} {r : Instr × List Byte}

theorem decodeBody_N_ok_iff (hf : o.format = .N) :
    decodeBody p o ch len body = .ok r ↔ (ch = 0 ∧ len = 0) ∧ (o.build 0 0 [], body) = r := by
  simp only [decodeBody, hf]
  split <;> simp [*]

theorem decodeBody_D_ok_iff (hf : o.format = .D) :
    decodeBody p o ch len body = .ok r ↔
      (ch = 0 ∧ len ≤ body.length) ∧ (o.build 0 0 (body.take len), body.drop len) = r := by
  simp only [decodeBody, hf]
  split
  · simp [*]
  · split <;> simp_all

theorem decodeBody_VB_ok_iff (hf : o.format = .V ∨ o.format = .B) :
    decodeBody p o ch len body = .ok r ↔
      (ch = 0 ∧ len = 0) ∧ ∃ v, takeVal p o body = .ok v ∧ (o.build 0 v.1 [], v.2) = r := by
  rcases hf with hf | hf <;> simp only [decodeBody, hf] <;> split <;> simp [*, Except.map_eq_ok_iff]

theorem decodeBody_C_ok_iff (hf : o.format = .C) :
    decodeBody p o ch len body = .ok r ↔ (len = 0 ∧ ch < p.nCh) ∧ (o.build ch 0 [], body) = r := by
  simp only [decodeBody, hf]
  split
  · simp [*]
  · split <;> simp_all

theorem decodeBody_CV_ok_iff (hf : o.format = .CV) :
    decodeBody p o ch len body = .ok r ↔
      (len = 0 ∧ ch < p.nCh) ∧ ∃ v, takeVal p o body = .ok v ∧ (o.build ch v.1 [], v.2) = r := by
  simp only [decodeBody, hf]
  split
  · simp [*]
  · split <;> simp_all [Except.map_eq_ok_iff]

end

/-! The round trip -/

/-- The row a byte's class selects is the one `feedInstr` builds (R85). -/
theorem feedInstr_of_class (b : Byte) :
    (byteClass b = .term → feedInstr b = .feedTerm b) ∧ (byteClass b = .erase → feedInstr b = .feedErase b) ∧
      (byteClass b = .print → feedInstr b = .feedPrint b) ∧ (byteClass b = .other → feedInstr b = .feedOther b) := by
  refine ⟨?_, ?_, ?_, ?_⟩ <;> intro h <;> simp only [feedInstr, h]

theorem Instr.operands_of_dataField {i : Instr} (hv : i.valField = none) (p : Params) : i.operands p = i.dataField := by
  simp [Instr.operands, hv]

theorem Instr.operands_of_valField {i : Instr} {v : Nat} (hv : i.valField = some v) (hd : i.dataField = [])
    (p : Params) : i.operands p = natBE (valBytes p) v := by
  simp [Instr.operands, hv, hd]

theorem decodeBody_feedInstr {p : Params} {b : Byte} (hb : valFits p b.toNat = true) (after : List Byte) :
    decodeBody p .feed 0 0 (natBE (valBytes p) b.toNat ++ after) = .ok (feedInstr b, after) := by
  rw [decodeBody_VB_ok_iff (.inr rfl)]
  exact ⟨⟨rfl, rfl⟩, _, takeVal_natBE p .feed _ after (of_decide_eq_true hb) b.isLt, by simp [Opcode.build]⟩

/-- The operands of a well-formed instruction are read back (R80, R81). -/
theorem decodeBody_operands {p : Params} {i : Instr} (h : i.wf p = true) (after : List Byte) :
    decodeBody p i.opcode i.chField i.dataField.length (i.operands p ++ after) = .ok (i, after) := by
  cases i with
  | space | used | rxrdy | txrdy | tick => exact (decodeBody_N_ok_iff rfl).2 ⟨⟨rfl, rfl⟩, rfl⟩
  | put data | wtext data | dispatch data =>
    rw [Instr.operands_of_dataField rfl, Instr.dataField, decodeBody_D_ok_iff rfl]
    exact ⟨⟨rfl, by simp⟩, by simp [Opcode.build, Instr.opcode]⟩
  | get most =>
    have hv : most < 2 ^ p.tsW := of_decide_eq_true h
    rw [Instr.operands_of_valField rfl rfl, decodeBody_VB_ok_iff (.inl rfl)]
    exact ⟨⟨rfl, rfl⟩, _, takeVal_natBE p .get most after hv hv, rfl⟩
  | feedTerm b | feedErase b | feedPrint b | feedOther b =>
    obtain ⟨hclass, hb⟩ := Bool.and_eq_true_iff.mp h
    obtain ⟨hterm, herase, hprint, hother⟩ := feedInstr_of_class b
    have hread := decodeBody_feedInstr hb after
    simp only [hterm, herase, hprint, hother, eq_of_beq hclass] at hread
    rwa [Instr.operands_of_valField rfl rfl]
  | chen ch | chdis ch =>
    obtain ⟨-, hch⟩ := Bool.and_eq_true_iff.mp h
    exact (decodeBody_C_ok_iff rfl).2 ⟨⟨rfl, of_decide_eq_true hch⟩, rfl⟩
  | chper ch period =>
    obtain ⟨hc, hv⟩ := Bool.and_eq_true_iff.mp h
    obtain ⟨-, hch⟩ := Bool.and_eq_true_iff.mp hc
    have hv : period < 2 ^ p.tsW := of_decide_eq_true hv
    rw [Instr.operands_of_valField rfl rfl, decodeBody_CV_ok_iff rfl]
    exact ⟨⟨rfl, of_decide_eq_true hch⟩, _, takeVal_natBE p .chper period after hv hv, rfl⟩
  | pinset ch level =>
    obtain ⟨hc, hv⟩ := Bool.and_eq_true_iff.mp h
    obtain ⟨-, hch⟩ := Bool.and_eq_true_iff.mp hc
    rw [Instr.operands_of_valField rfl rfl, decodeBody_CV_ok_iff rfl]
    exact ⟨⟨rfl, of_decide_eq_true hch⟩, _,
      takeVal_natBE p .pinset level.toNat after (of_decide_eq_true hv) level.toNat_lt, by
        simp [Opcode.build, Instr.opcode, Instr.chField]⟩

/-- What an operation builds is that operation, and well-formed where its fields fit (R80, R83). -/
theorem decodeBody_sound {p : Params} {o : Opcode} {ch len : Nat} {body after : List Byte} {i : Instr} (hch : ch < 2 ^ 8)
    (hlen : len < 2 ^ 16) (h : decodeBody p o ch len body = .ok (i, after)) :
    i.wf p = true ∧ i.opcode = o ∧ i.chField = ch ∧ i.dataField.length = len ∧ body = i.operands p ++ after := by
  cases o with
  | space | used | rxrdy | txrdy | tick =>
    obtain ⟨⟨rfl, rfl⟩, e⟩ := (decodeBody_N_ok_iff rfl).1 h
    cases e
    exact ⟨rfl, rfl, rfl, rfl, rfl⟩
  | put | wtext | dispatch =>
    obtain ⟨⟨rfl, hle⟩, e⟩ := (decodeBody_D_ok_iff rfl).1 h
    cases e
    have hlen' : (body.take len).length = len := List.length_take_of_le hle
    refine ⟨?_, rfl, rfl, hlen', ?_⟩
    · simp only [Opcode.build, Instr.wf, dataFits, hlen', hlen, decide_true]
    · rw [Instr.operands_of_dataField rfl]
      exact (List.take_append_drop len body).symm
  | get =>
    obtain ⟨⟨rfl, rfl⟩, v, hv, e⟩ := (decodeBody_VB_ok_iff (.inl rfl)).1 h
    cases e
    obtain ⟨hbody, hw, -⟩ := natBE_of_takeVal hv
    exact ⟨decide_eq_true hw, rfl, rfl, rfl, by rwa [Instr.operands_of_valField rfl rfl]⟩
  | feed =>
    obtain ⟨⟨rfl, rfl⟩, v, hv, e⟩ := (decodeBody_VB_ok_iff (.inr rfl)).1 h
    cases e
    obtain ⟨hbody, hw, hb⟩ := natBE_of_takeVal hv
    have hval : (BitVec.ofNat 8 v.1).toNat = v.1 := Nat.mod_eq_of_lt hb
    simp only [Opcode.build, feedInstr_wf, feedInstr_opcode, feedInstr_chField, feedInstr_dataField, hval,
      Instr.operands_of_valField (feedInstr_valField _) (feedInstr_dataField _)]
    exact ⟨decide_eq_true hw, trivial, trivial, rfl, hbody⟩
  | chen | chdis =>
    obtain ⟨⟨rfl, hlt⟩, e⟩ := (decodeBody_C_ok_iff rfl).1 h
    cases e
    exact ⟨by simp [Opcode.build, Instr.wf, chanFits, hlt]; exact hch, rfl, rfl, rfl, rfl⟩
  | chper =>
    obtain ⟨⟨rfl, hlt⟩, v, hv, e⟩ := (decodeBody_CV_ok_iff rfl).1 h
    cases e
    obtain ⟨hbody, hw, -⟩ := natBE_of_takeVal hv
    exact ⟨by simp [Opcode.build, Instr.wf, chanFits, valFits, hlt, hw]; exact hch, rfl, rfl, rfl,
      by rwa [Instr.operands_of_valField rfl rfl]⟩
  | pinset =>
    obtain ⟨⟨rfl, hlt⟩, v, hv, e⟩ := (decodeBody_CV_ok_iff rfl).1 h
    cases e
    obtain ⟨hbody, hw, hb⟩ := natBE_of_takeVal hv
    have hb : v.1 < 2 := hb
    have hval : (v.1 == 1).toNat = v.1 := by interval_cases v.1 <;> rfl
    refine ⟨?_, rfl, rfl, rfl, ?_⟩
    · simp [Opcode.build, Instr.wf, chanFits, valFits, hlt, hval, hw]; exact hch
    · rw [Opcode.build, Instr.operands_of_valField rfl rfl, hval]
      exact hbody

/-- A header word is the one its fields write (R80). -/
theorem natBE_two_beNat (hi lo : Byte) : natBE 2 (beNat [hi, lo]) = [hi, lo] := natBE_beNat [hi, lo]

theorem beNat_pair_lt (hi lo : Byte) : beNat [hi, lo] < 2 ^ 16 := by
  have h1 := hi.isLt
  have h2 := lo.isLt
  simp only [beNat, List.foldl_cons, List.foldl_nil]
  omega

/-- Settles O52: the operands of a well-formed instruction are read back under its own header. -/
theorem decodeUndoesEncode : Obligations.DecodeUndoesEncode := fun p i after _ h => by
  rw [decode_encode_append p i after (Instr.wf_chField h) (Instr.wf_dataField h), decodeBody_operands h]

theorem decode_sound {p : Params} {bytes after : List Byte} {i : Instr} (h : decode p bytes = .ok (i, after)) :
    i.wf p = true ∧ bytes = encode p i ++ after := by
  match bytes, h with
  | op :: ch :: hi :: lo :: body, h =>
    simp only [decode] at h
    split at h
    · next o ho =>
      obtain ⟨hwf, rfl, hch, hlen, rfl⟩ := decodeBody_sound ch.isLt (beNat_pair_lt hi lo) h
      refine ⟨hwf, ?_⟩
      rw [encode_eq_header_append_operands, Instr.header, Opcode.code_of_ofByte ho, hch, hlen, natBE_two_beNat]
      simp
    · cases h
  | [], h | [_], h | [_, _], h | [_, _, _], h => cases h

/-- Settles O53: the decoder's inversion, with the header rebuilt from its fields. -/
theorem decodedRecordIsTheEncoding : Obligations.DecodedRecordIsTheEncoding := fun _ _ _ _ _ h => decode_sound h

/-! Codes and refusals -/

theorem Opcode.ofByte_eq_none {b : Byte} (h : ∀ o : Opcode, o.code ≠ b) : Opcode.ofByte b = none :=
  List.find?_eq_none.mpr fun o _ hc => h o (eq_of_beq hc)

theorem Opcode.code_injective {o o' : Opcode} (h : o.code = o'.code) : o = o' := by
  have hsome := congrArg Opcode.ofByte h
  rw [Opcode.ofByte_code, Opcode.ofByte_code] at hsome
  exact Option.some.inj hsome

/-- Settles O54: the table is read off, and the codes are told apart by the operation each selects. -/
theorem onlyTheFourteenCodesDecode : Obligations.OnlyTheFourteenCodesDecode :=
  ⟨rfl, rfl, fun _ _ => Opcode.code_injective, fun p op ch hi lo body h => by
    simp only [decode, Opcode.ofByte_eq_none h]⟩

section
variable {p : Params} {o : Opcode} {ch len : Nat} {body : List Byte}

theorem decodeBody_ch_ne_zero (hC : o.format ≠ .C) (hCV : o.format ≠ .CV) (hch : ch ≠ 0) :
    decodeBody p o ch len body = .error .mustBeZero := by
  cases hf : o.format <;> simp_all [decodeBody]

theorem decodeBody_len_ne_zero (hD : o.format ≠ .D) (hlen : len ≠ 0) :
    decodeBody p o ch len body = .error .mustBeZero := by
  cases hf : o.format <;> simp_all [decodeBody]

theorem decodeBody_missing_channel (hf : o.format = .C ∨ o.format = .CV) (hch : p.nCh ≤ ch) :
    decodeBody p o ch 0 body = .error (.channelOutOfRange ch) := by
  rcases hf with hf | hf <;> simp [decodeBody, hf, hch]

theorem decodeBody_data_short (hf : o.format = .D) (hlen : body.length < len) :
    decodeBody p o 0 len body = .error .truncatedData := by
  simp [decodeBody, hf, hlen]

/-- A `val` word that is refused has its record refused (R83). -/
theorem decodeBody_takeVal_error {e : DecodeError} (hval : takeVal p o body = .error e)
    (hf : ((o.format = .V ∨ o.format = .B) ∧ ch = 0) ∨ (o.format = .CV ∧ ch < p.nCh)) :
    decodeBody p o ch 0 body = .error e := by
  rcases hf with ⟨hf | hf, rfl⟩ | ⟨hf, hch⟩
  · simp [decodeBody, hf, hval, Except.map]
  · simp [decodeBody, hf, hval, Except.map]
  · simp [decodeBody, hf, hval, Except.map, Nat.not_le.mpr hch]

theorem takeVal_short (h : body.length < valBytes p) : takeVal p o body = .error .truncatedVal := if_pos h

/-- What is read of a `val` word, whatever number it spells (R80, R83). -/
theorem takeVal_natBE_append {v : Nat} (h : v < 256 ^ valBytes p) (after : List Byte) :
    takeVal p o (natBE (valBytes p) v ++ after) =
      if 2 ^ p.tsW ≤ v then .error .valTooWide
      else if o.valLimit p ≤ v then .error .mustBeZero else .ok (v, after) := by
  have htake : (natBE (valBytes p) v ++ after).take (valBytes p) = natBE (valBytes p) v := List.take_left' (by simp)
  have hdrop : (natBE (valBytes p) v ++ after).drop (valBytes p) = after := List.drop_left' (by simp)
  rw [takeVal, htake, hdrop, beNat_natBE_of_lt h, if_neg (by simp)]

theorem takeVal_too_wide {v : Nat} (h : v < 256 ^ valBytes p) (hv : 2 ^ p.tsW ≤ v) (after : List Byte) :
    takeVal p o (natBE (valBytes p) v ++ after) = .error .valTooWide := by
  rw [takeVal_natBE_append h, if_pos hv]

theorem takeVal_above_limit {v : Nat} (h : v < 256 ^ valBytes p) (hv : v < 2 ^ p.tsW) (hlim : o.valLimit p ≤ v)
    (after : List Byte) : takeVal p o (natBE (valBytes p) v ++ after) = .error .mustBeZero := by
  rw [takeVal_natBE_append h, if_neg (Nat.not_le.mpr hv), if_pos hlim]

end

theorem beNat_pair_ne_zero {hi lo : Byte} (h : hi ≠ 0#8 ∨ lo ≠ 0#8) : beNat [hi, lo] ≠ 0 := by
  simp only [beNat, List.foldl_cons, List.foldl_nil, ne_eq, ← BitVec.toNat_inj, BitVec.toNat_ofNat] at h ⊢
  omega

/-- Settles O55: each clause is the refusal of its format's operands, read behind the header. -/
theorem malformedRecordsAreRefused : Obligations.MalformedRecordsAreRefused := by
  intro p o ch hi lo body
  refine ⟨?_, ?_, ?_, ?_, ?_, ?_, ?_⟩
  · intro hC hCV hch
    rw [decode_code_cons]
    exact decodeBody_ch_ne_zero hC hCV fun h => hch (BitVec.eq_of_toNat_eq h)
  · intro hD hlen
    rw [decode_code_cons]
    exact decodeBody_len_ne_zero hD (beNat_pair_ne_zero hlen)
  · intro hf hch
    rw [decode_code_cons]
    exact decodeBody_missing_channel hf hch
  · intro hf hlen
    rw [decode_code_cons]
    exact decodeBody_data_short hf (by simpa [beNat] using hlen)
  · intro hf hlen
    rw [decode_code_cons]
    exact decodeBody_takeVal_error (takeVal_short hlen) (.inl ⟨hf, rfl⟩)
  · intro hf hch hlen
    rw [decode_code_cons]
    exact decodeBody_takeVal_error (takeVal_short hlen) (.inr ⟨hf, hch⟩)
  · intro v rest hv
    simp only [List.cons_append, List.nil_append, decode_code_cons]
    refine ⟨?_, ?_, ?_, ?_⟩
    · intro hlim hw
      exact decodeBody_takeVal_error (takeVal_above_limit (o := .feed) hv hw hlim rest) (.inl ⟨.inr rfl, rfl⟩)
    · intro hlim hw hch
      exact decodeBody_takeVal_error (takeVal_above_limit (o := .pinset) hv hw hlim rest) (.inr ⟨rfl, hch⟩)
    · intro hw hf
      exact decodeBody_takeVal_error (takeVal_too_wide hv hw rest) (.inl ⟨hf, rfl⟩)
    · intro hw hf hch
      exact decodeBody_takeVal_error (takeVal_too_wide hv hw rest) (.inr ⟨hf, hch⟩)

/-! The classes of bytes, and the spec's own records -/

theorem byteClass_eq_term_iff (b : Byte) : byteClass b = .term ↔ b = 0x0D#8 ∨ b = 0x0A#8 := by
  unfold byteClass
  split_ifs <;> simp_all

theorem byteClass_eq_erase_iff (b : Byte) : byteClass b = .erase ↔ b = 0x08#8 ∨ b = 0x7F#8 := by
  unfold byteClass
  split_ifs with hterm
  · rcases hterm with rfl | rfl <;> decide
  all_goals simp_all

/-- No terminator or erase byte lies in the printable range (R85). -/
theorem byteClass_eq_print_iff (b : Byte) : byteClass b = .print ↔ 0x20#8 ≤ b ∧ b ≤ 0x7E#8 := by
  simp only [BitVec.le_def, BitVec.toNat_ofNat]
  unfold byteClass
  split_ifs with hterm herase
  · rcases hterm with rfl | rfl <;> decide
  · rcases herase with rfl | rfl <;> decide
  all_goals simp_all

/-- Settles O56: a byte's FEED record is the encoding of the row its class selects. -/
theorem feedByteSelectsItsRow : Obligations.FeedByteSelectsItsRow := by
  refine ⟨fun b => ⟨byteClass_eq_term_iff b, byteClass_eq_erase_iff b, byteClass_eq_print_iff b⟩, fun p b hw => ?_⟩
  have hb : valFits p b.toNat = true :=
    decide_eq_true (b.isLt.trans_le (Nat.pow_le_pow_right (by norm_num) hw))
  have hread := decodeBody_feedInstr hb []
  rw [List.append_nil] at hread
  exact (decode_code_cons p .feed 0#8 0#8 0#8 _).trans hread

/-- Settles O57: each record is decoded. -/
theorem recordsOfTheSpecDecode : Obligations.RecordsOfTheSpecDecode := by
  unfold Obligations.RecordsOfTheSpecDecode
  and_intros <;> decide

end Sys2Proof
end

section
/-! PROOFS. What an instruction and a step can do, said once: an instruction that answers a next state has left its effect
and its reply under the condition it runs on, and a step is one of five cases. From these, the invariants of Safety.lean
and what every operation keeps (spec/10_state.md R27, R31, R33, R39; spec/60_exceptions.md R194, R195). -/

namespace Sys2Proof.Machine

/-! Inversion of `exec` -/

/-- The state an instruction leaves, less its reply: the operation of Ops.lean its rule names. -/
def effect (s : State) : Instr → State
  | .put data => s.put data
  | .get most => s.pop most
  | .space | .used | .feedOther _ => s
  | .rxrdy => s.receive
  | .txrdy => s.transmit
  | .wtext data => s.enqueue data
  | .feedTerm _ => s.feedTerm
  | .feedErase _ => s.feedErase
  | .feedPrint b => s.feedPrint b
  | .dispatch line => s.dispatch line
  | .tick => s.tick
  | .chen i => s.chen i
  | .chdis i => s.chdis i
  | .chper i p => s.chper i p
  | .pinset i v => s.pinset i v

/-- What an instruction hands back (R82). -/
def reply (s : State) : Instr → OpResult
  | .put data | .wtext data => .count (s.accepts data)
  | .get most => .bytes (s.front most)
  | .space => .count s.space
  | .used => .count s.ring.count
  | .rxrdy | .txrdy | .feedTerm _ | .feedErase _ | .feedPrint _ | .feedOther _ | .dispatch _ | .tick | .chen _ | .chdis _
  | .chper _ _ | .pinset _ _ => .none

/-- Where an instruction is not refused: a framer for FEED and DISPATCH, a channel for a channel command, and a period that
can be stored (R33, R171, R168). -/
def Runs (s : State) : Instr → Prop
  | .put _ | .get _ | .space | .used | .rxrdy | .txrdy | .wtext _ | .tick => True
  | .feedTerm _ | .feedErase _ | .feedPrint _ | .feedOther _ | .dispatch _ => s.cfg.sink = .console
  | .chen i | .chdis i | .pinset i _ => i < s.cfg.nCh
  | .chper i p => p < 2 ^ s.cfg.tsW ∧ i < s.cfg.nCh

theorem ifFramer_next_iff {s t u : State} : ifFramer s t = .next u ↔ s.cfg.sink = .console ∧ t.ret .none = u := by
  unfold ifFramer
  cases s.cfg.sink <;> simp

theorem onChannel_next_iff {s t u : State} {i : Nat} : onChannel i s t = .next u ↔ i < s.cfg.nCh ∧ t.ret .none = u := by
  unfold onChannel
  split <;> simp [*]

theorem execChper_next_iff {s u : State} {i p : Nat} :
    execChper i p s = .next u ↔ (p < 2 ^ s.cfg.tsW ∧ i < s.cfg.nCh) ∧ (s.chper i p).ret .none = u := by
  unfold execChper
  split <;> simp [*, onChannel_next_iff]

/-- An instruction answers a next state exactly where it runs, and that state is its effect with its reply. -/
theorem exec_next_iff {i : Instr} {s t : State} : exec i s = .next t ↔ Runs s i ∧ (effect s i).ret (reply s i) = t := by
  cases i with
  | put | get | space | used | rxrdy | txrdy | wtext | tick =>
    exact ⟨fun h => ⟨trivial, Host.Outcome.next.inj h⟩, fun h => congrArg _ h.2⟩
  | feedTerm | feedErase | feedPrint | feedOther | dispatch => exact ifFramer_next_iff
  | chen | chdis | pinset => exact onChannel_next_iff
  | chper => exact execChper_next_iff

theorem exec_eq_of_runs {i : Instr} {s : State} (h : Runs s i) : exec i s = .next ((effect s i).ret (reply s i)) :=
  exec_next_iff.2 ⟨h, rfl⟩

/-- What an instruction's effect keeps, whatever its reply, the instruction keeps. -/
theorem exec_next_induct {P : State → Prop} (hret : ∀ u r, P u → P (u.ret r)) {i : Instr} {s t : State}
    (h : exec i s = .next t) (heff : Runs s i → P (effect s i)) : P t := by
  obtain ⟨hruns, rfl⟩ := exec_next_iff.1 h
  exact hret _ _ (heff hruns)

/-! Inversion of `step` -/

/-- The five ways a step answers a next state (R92). -/
inductive StepTo (s t : State) : Prop where
  | idle (hsch : s.schedule = []) (ht : t = s)
  | reset (rest : List TraceItem) (hsch : s.schedule = .reset :: rest)
      (ht : t = State.hardReset { s with schedule := rest })
  | boot (table : List CommandEntry) (msg : List Byte) (rest : List TraceItem)
      (hsch : s.schedule = .boot table msg :: rest) (hbooted : s.booted = false) (hreset : s.atReset = true)
      (htable : tableOk table = true) (ht : t = State.boot { s with schedule := rest } table msg)
  | arrive (data : List Byte) (rest : List TraceItem) (hsch : s.schedule = .arrive data :: rest)
      (ht : t = { s with schedule := rest, rxq := s.rxq ++ data })
  | record (who : Issuer) (bytes : List Byte) (d : Draws) (rest : List TraceItem) (i : Instr) (after : List Byte)
      (hsch : s.schedule = .record who bytes d :: rest) (hdec : decode s.cfg bytes = .ok (i, after))
      (hbar : s.barrier who i = none) (ht : exec i { s with schedule := rest, draws := d, calling := none } = .next t)

/-- A step on a trace that goes on runs the next element (R92). -/
theorem step_eq_runItem {s : State} {item : TraceItem} {rest : List TraceItem} (h : s.schedule = item :: rest) :
    step s = State.runItem { s with schedule := rest } item := by
  simp only [step, State.advance, h]

/-- A step on a record is its delivery; neither the trace nor the draws bear on what bars it. -/
theorem step_record {s : State} {who : Issuer} {bytes : List Byte} {d : Draws} {rest : List TraceItem} {i : Instr}
    {after : List Byte} (hsch : s.schedule = .record who bytes d :: rest) (hdec : decode s.cfg bytes = .ok (i, after)) :
    step s = (s.barrier who i).elim (exec i { s with schedule := rest, draws := d, calling := none }) .refused := by
  have hbar : State.barrier { s with schedule := rest } who i = s.barrier who i := rfl
  simp only [step_eq_runItem hsch, State.runItem, State.deliverRecord, hdec, hbar]
  cases s.barrier who i <;> rfl

/-- A step on BOOT, by what BOOT asks for (R226). -/
theorem step_boot {s : State} {table : List CommandEntry} {msg : List Byte} {rest : List TraceItem}
    (hsch : s.schedule = .boot table msg :: rest) :
    step s =
      if s.booted then .refused .alreadyBooted
      else if s.atReset = false then .refused .notAtReset
      else if tableOk table then .next (State.boot { s with schedule := rest } table msg)
      else .refused .badCommandTable :=
  step_eq_runItem hsch

theorem StepTo.of_step {s t : State} (h : step s = .next t) : StepTo s t := by
  cases hsch : s.schedule with
  | nil =>
    simp only [step, State.advance, hsch] at h
    exact .idle hsch (Host.Outcome.next.inj h).symm
  | cons item rest =>
    cases item with
    | record who bytes d =>
      cases hdec : decode s.cfg bytes with
      | error e => simp [step_eq_runItem hsch, State.runItem, State.deliverRecord, hdec] at h
      | ok r =>
        rw [step_record hsch hdec] at h
        cases hbar : s.barrier who r.1 <;> rw [hbar] at h
        · exact .record who bytes d rest r.1 r.2 hsch hdec hbar h
        · cases h
    | reset =>
      rw [step_eq_runItem hsch] at h
      exact .reset rest hsch (Host.Outcome.next.inj h).symm
    | boot table msg =>
      rw [step_boot hsch] at h
      split_ifs at h with hbooted hreset htable
      exact .boot table msg rest hsch (by simpa using hbooted) (by simpa using hreset) htable
        (Host.Outcome.next.inj h).symm
    | arrive data =>
      rw [step_eq_runItem hsch] at h
      exact .arrive data rest hsch (Host.Outcome.next.inj h).symm
    | transportFault =>
      rw [step_eq_runItem hsch] at h
      cases h

/-! The invariants of the ring, the line and the channels -/

/-- A well-formed instruction keeps the invariants: FEED.PRINT in a record carries a printable byte (R85). -/
theorem inv_exec {i : Instr} {s t : State} (hs : s.Inv) (hwf : i.wf s.cfg = true) (h : exec i s = .next t) : t.Inv := by
  refine exec_next_induct (fun u r hu => State.inv_congr rfl rfl rfl rfl rfl hu) h fun hruns => ?_
  cases i with
  | put data => exact State.inv_put hs data
  | get most => exact State.inv_pop hs most
  | space | used | feedOther b => exact hs
  | rxrdy => exact State.inv_receive hs
  | txrdy => exact State.inv_transmit hs
  | wtext data => exact State.inv_enqueue hs data
  | feedTerm b => exact State.inv_feedTerm hs
  | feedErase b => exact State.inv_feedErase hs
  | feedPrint b => exact State.inv_feedPrint hs (eq_of_beq (Bool.and_eq_true_iff.mp hwf).1)
  | dispatch line => exact State.inv_dispatch hs line
  | tick => exact State.inv_tick hs
  | chen i => exact State.inv_chen hs i
  | chdis i => exact State.inv_chdis hs i
  | chper i p => exact State.inv_chper hs i hruns.1
  | pinset i v => exact State.inv_pinset hs i v

theorem inv_hardReset {s : State} (h : s.cfg.wf) : s.hardReset.Inv :=
  State.inv_congr rfl rfl rfl rfl rfl (State.inv_resetOf h)

/-- The parameters still keep R7 when a table that R7 allows is supplied. -/
theorem wf_with_table {p : Params} (h : p.wf) {table : List CommandEntry} (ht : tableOk table = true) (msg : List Byte) :
    Params.wf { p with cmdTable := table, unknownMsg := msg } := by
  obtain ⟨hring, hrx, htx, hline, hch, htick, hts, -⟩ := h
  exact ⟨hring, hrx, htx, hline, hch, htick, hts, ht⟩

theorem inv_boot {s : State} (h : s.Inv) {table : List CommandEntry} (ht : tableOk table = true) (msg : List Byte) :
    (s.boot table msg).Inv := by
  obtain ⟨hcfg, hring, hline, hchan⟩ := h
  exact ⟨wf_with_table hcfg ht msg, hring, hline, hchan⟩

/-- Settles O47: by the cases of a step; a record that decodes is a well-formed instruction. -/
theorem invariantsKeptByEveryStep : Obligations.InvariantsKeptByEveryStep := by
  intro s t hs h
  cases StepTo.of_step h with
  | idle _ ht => exact ht ▸ hs
  | reset rest _ ht => exact ht ▸ inv_hardReset hs.1
  | boot table msg rest _ _ _ htable ht =>
    subst ht
    exact inv_boot (State.inv_congr (s := s) rfl rfl rfl rfl rfl hs) htable msg
  | arrive data rest _ ht => exact ht ▸ State.inv_congr (s := s) rfl rfl rfl rfl rfl hs
  | record who bytes d rest i after _ hdec _ ht =>
    have hs' : State.Inv { s with schedule := rest, draws := d, calling := none } :=
      State.inv_congr (s := s) rfl rfl rfl rfl rfl hs
    exact inv_exec hs' (decode_sound hdec).1 ht

/-! The bridge's invariants -/

/-- RXRDY keeps B1 to B3: the one suspension it makes finds the ring full (R121). BOOT must be over. -/
theorem bridgeInv_receive {s : State} (hs : s.Inv) (hb : s.BridgeInv) (hbooted : s.booted = true) :
    s.receive.BridgeInv := by
  by_cases hfull : s.space = 0
  · have hcount := (State.RingInv.count_add_space hs.2.1)
    obtain ⟨-, htx, -, -⟩ := hb
    rw [State.receive_full s hfull]
    exact ⟨fun _ => rfl, htx, fun _ => by simpa [hfull] using hcount, fun h => absurd (hbooted.symm.trans h) nofun⟩
  · rw [State.receive_open s hfull]
    exact State.bridgeInv_deliver (s := s.readDone) (State.inv_congr (s := s) rfl rfl rfl rfl rfl hs)
      (State.bridgeInv_congr (s := s) rfl rfl rfl rfl rfl rfl hb) _

/-- TXRDY keeps B1 to B3: where it pops nothing nothing is queued, and otherwise it ends any suspension (R123). -/
theorem bridgeInv_transmit {s : State} (hs : s.Inv) (hb : s.BridgeInv) : s.transmit.BridgeInv := by
  obtain ⟨hrx, htx, hcap, hboot⟩ := hb
  by_cases hpop : min s.cfg.txBurst s.ring.count = 0
  · obtain ⟨-, -, hburst, -⟩ := hs.1
    rw [State.transmit_empty s hpop]
    refine ⟨hrx, fun hpos => ?_, fun ht => ?_, hboot⟩
    · simp only [State.disableTx_ring, State.pop_ring_count] at hpos
      omega
    · simpa [hpop] using hcap ht
  · rw [State.transmit_eq s hpop]
    refine ⟨nofun, fun hpos => htx ?_, nofun, fun _ => rfl⟩
    exact Nat.lt_of_lt_of_le hpos (Nat.sub_le ..)

/-- Every instruction but a bare PUT or GET keeps B1 to B3; an RXRDY needs BOOT to be over. -/
theorem bridgeInv_exec {i : Instr} {s t : State} (hs : s.Inv) (hb : s.BridgeInv) (hput : ∀ data, i ≠ .put data)
    (hget : ∀ most, i ≠ .get most) (hbooted : i = .rxrdy → s.booted = true) (h : exec i s = .next t) : t.BridgeInv := by
  refine exec_next_induct (fun u r hu => State.bridgeInv_congr rfl rfl rfl rfl rfl rfl hu) h fun hruns => ?_
  cases i with
  | put data => exact absurd rfl (hput data)
  | get most => exact absurd rfl (hget most)
  | space | used | feedOther b => exact hb
  | rxrdy => exact bridgeInv_receive hs hb (hbooted rfl)
  | txrdy => exact bridgeInv_transmit hs hb
  | wtext data => exact State.bridgeInv_enqueue hs.2.1 hb data
  | feedTerm b => exact State.bridgeInv_feedTerm hs hb
  | feedErase b => exact State.bridgeInv_feedErase hs hb
  | feedPrint b => exact State.bridgeInv_feedPrint hs hb b
  | dispatch line => exact (State.bridgeInv_dispatch hs hb line).2
  | tick => exact State.bridgeInv_tick hb
  | chen | chdis | pinset => exact hb
  | chper i p =>
    simp only [effect, State.chper]
    split <;> exact hb

/-- BOOT keeps B1 to B3: nothing is suspended before it (R226). -/
theorem bridgeInv_boot {s : State} (hb : s.BridgeInv) (hbooted : s.booted = false) (table : List CommandEntry)
    (msg : List Byte) : (s.boot table msg).BridgeInv := by
  obtain ⟨-, htx, hcap, hboot⟩ := hb
  have hthrottle : s.throttle = false := hboot hbooted
  exact ⟨fun h => absurd (hthrottle.symm.trans h) nofun, htx, hcap, nofun⟩

/-- Settles O19: by the cases of a step; no test bench issues an RXRDY, so one that is delivered comes after BOOT. -/
theorem bridgeInvariantsKeptByEverySystemStep : Obligations.BridgeInvariantsKeptByEverySystemStep := by
  intro s t hs hb hbare h
  cases StepTo.of_step h with
  | idle _ ht => exact ht ▸ hb
  | reset rest _ ht =>
    subst ht
    exact ⟨nofun, fun hpos => absurd hpos (Nat.lt_irrefl 0), nofun, fun _ => rfl⟩
  | boot table msg rest _ hbooted _ _ ht =>
    subst ht
    exact bridgeInv_boot (State.bridgeInv_congr (s := s) rfl rfl rfl rfl rfl rfl hb) hbooted table msg
  | arrive data rest _ ht => exact ht ▸ State.bridgeInv_congr (s := s) rfl rfl rfl rfl rfl rfl hb
  | record who bytes d rest i after hsch hdec hbar ht =>
    obtain ⟨hput, hget⟩ := hbare who bytes d rest i after hsch hdec
    obtain ⟨hmay, -, hbench, -⟩ := State.barrier_none hbar
    have hs' : State.Inv { s with schedule := rest, draws := d, calling := none } :=
      State.inv_congr (s := s) rfl rfl rfl rfl rfl hs
    have hb' : State.BridgeInv { s with schedule := rest, draws := d, calling := none } :=
      State.bridgeInv_congr (s := s) rfl rfl rfl rfl rfl rfl hb
    refine bridgeInv_exec hs' hb' hput hget (fun hrx => hbench.resolve_left ?_) ht
    rintro rfl
    subst hrx
    cases hmay

end Sys2Proof.Machine
end

section
/-! PROOFS. The ring as a queue (spec/40_fifo.md R101, R106; spec/30_encoding.md R81): where PUT stores what it accepts, the
FIFO law, and bytes put in several calls. -/

namespace Sys2Proof.Machine

variable (s : State)

/-! One PUT -/

/-- The bytes PUT accepts fit the array: no two go to one cell. -/
theorem State.accepts_le_ringCap (data : List Byte) : s.accepts data ≤ s.cfg.ringCap :=
  (s.accepts_le_space data).trans (Nat.sub_le ..)

/-- Cell `(wr + i) mod capacity` holds byte `i` of what PUT accepts (R101). -/
theorem State.put_read_accepted (data : List Byte) {i : Nat} (hi : i < s.accepts data) :
    (s.put data).ring.mem.read ((s.ring.wr + i) % s.cfg.ringCap) = data[i]? := by
  have hlen := s.length_take_accepts data
  have hcap : (data.take (s.accepts data)).length ≤ s.cfg.ringCap := hlen.trans_le (s.accepts_le_ringCap data)
  rw [State.put_ring_mem, Memory.read_writeRun_same _ _ _ _ hcap i (hi.trans_eq hlen.symm), ← List.getElem?_eq_getElem,
    List.getElem?_take_of_lt hi]

/-- PUT leaves the other cells alone (R101). -/
theorem State.put_read_other (data : List Byte) {a : Nat}
    (ha : ∀ i < s.accepts data, a ≠ (s.ring.wr + i) % s.cfg.ringCap) :
    (s.put data).ring.mem.read a = s.ring.mem.read a :=
  Memory.read_writeRun_other _ _ _ _ _ fun i hi => ha i (s.length_take_accepts data ▸ hi)

/-- Settles O1: `State.put` stores the run that its count, its cursor and its result speak of. -/
theorem putStoresLeadingBytesThatFit : Obligations.PutStoresLeadingBytesThatFit := fun s data =>
  ⟨_, exec_put s data, rfl, rfl, rfl, rfl, fun _ hi => s.put_read_accepted data hi, fun _ ha => s.put_read_other data ha⟩

/-- Settles O6: by what PUT and GET do to the content, whose length is the count. -/
theorem ringIsQueue : Obligations.RingIsQueue := by
  intro s h
  rw [s.length_content]
  exact ⟨fun data => ⟨_, exec_put s data, s.ringInv_put h data, s.content_put h data, rfl⟩,
    fun most => ⟨_, exec_get s most, s.ringInv_pop h most, s.content_pop most, congrArg _ (s.front_eq_take most)⟩,
    ⟨_, exec_space s, rfl⟩, _, exec_used s, rfl⟩

/-! Several PUTs -/

/-- PUTs whose bytes together fit the free space run, and append them all to the queue (R106). -/
theorem execAll_put_content (pieces : List (List Byte)) {s : State} (h : s.RingInv)
    (hfit : s.ring.count + pieces.flatten.length ≤ s.cfg.ringCap) :
    ∃ t, execAll (pieces.map .put) s = .next t ∧ t.content = s.content ++ pieces.flatten := by
  induction pieces generalizing s with
  | nil => exact ⟨s, rfl, by simp⟩
  | cons piece pieces ih =>
    rw [List.flatten_cons, List.length_append] at hfit
    have hall : s.accepts piece = piece.length := Nat.min_eq_left (by unfold State.space; omega)
    obtain ⟨t, hrun, hcontent⟩ := ih (s := (s.put piece).ret (.count (s.accepts piece))) (s.ringInv_put h piece)
      (by simp only [State.ret_ring, State.ret_cfg, State.put_ring_count, State.put_cfg, hall]; omega)
    refine ⟨t, hrun, ?_⟩
    rw [hcontent, State.content_ret, s.content_put h, hall, List.take_length, List.flatten_cons, List.append_assoc]

/-- Settles O7: the PUTs leave the pieces as the queue's content, and GET hands the content back. -/
theorem putsWithinCapacityComeBackInOrder : Obligations.PutsWithinCapacityComeBackInOrder := by
  intro s pieces h hempty hfit
  obtain ⟨t, hrun, hcontent⟩ := execAll_put_content pieces h (by omega)
  have hnone : s.content = [] := List.eq_nil_of_length_eq_zero (by rw [s.length_content, hempty])
  rw [hnone, List.nil_append] at hcontent
  refine ⟨t, _, hrun, exec_get t _, ?_, ?_⟩
  · rw [State.ret_result, t.front_eq_take, hcontent, List.take_length]
  · rw [State.ret_ring, ← State.length_content, t.content_pop, hcontent, List.drop_length, List.length_nil]

/-! Bytes in two pieces -/

theorem State.ret_put (r : OpResult) (data : List Byte) : (s.ret r).put data = (s.put data).ret r := rfl

/-- How many bytes a PUT accepts depends on the ring and its capacity alone, and so does the ring it leaves. -/
theorem State.accepts_congr {s t : State} (hr : t.ring = s.ring) (hc : t.cfg = s.cfg) (data : List Byte) :
    t.accepts data = s.accepts data := by
  simp only [State.accepts_eq, hr, hc]

theorem State.put_ring_congr {s t : State} (hr : t.ring = s.ring) (hc : t.cfg = s.cfg) (data : List Byte) :
    (t.put data).ring = (s.put data).ring := by
  simp only [State.put, State.accepts_congr hr hc, hr, hc]

theorem State.accepts_enqueue (front back : List Byte) :
    (s.enqueue front).accepts back = (s.put front).accepts back :=
  State.accepts_congr (s.enqueue_ring front) (s.enqueue_cfg front) back

/-- Two `Enqueue`s are one of both pieces, but for the observer's record (R81, R124). -/
theorem State.enqueue_append (front back : List Byte) :
    (s.enqueue front).enqueue back =
      { s.enqueue (front ++ back) with log := ((s.enqueue front).enqueue back).log } := by
  have hring : ((s.enqueue front).put back).ring = (s.put (front ++ back)).ring := by
    rw [s.put_append]
    exact State.put_ring_congr (s.enqueue_ring front) (s.enqueue_cfg front) back
  have hfront_le := s.accepts_le_length front
  have hback_le := (s.put front).accepts_le_length back
  have hsum := s.accepts_append front back
  have hdrop : s.putDrop + (front.length - s.accepts front) + (back.length - (s.put front).accepts back) =
      s.putDrop + ((front ++ back).length - s.accepts (front ++ back)) := by
    rw [List.length_append]
    omega
  have htx : ((s.txNotifyEn || decide (0 < s.accepts front)) || decide (0 < (s.put front).accepts back)) =
      (s.txNotifyEn || decide (0 < s.accepts (front ++ back))) := by
    rw [Bool.or_assoc, ← Bool.decide_or, hsum]
    simp only [Nat.add_pos_iff_pos_or_pos]
  conv_lhs => rw [(s.enqueue front).enqueue_eq back]
  simp only [s.enqueue_eq (front ++ back), State.enqueue_txNotifyEn, State.enqueue_putDrop, s.accepts_enqueue, hring,
    hdrop, htx]
  simp

/-- Settles O8: PUT and `Enqueue` of two pieces are PUT and `Enqueue` of both, and a result left behind is not read. -/
theorem piecesOfDataActAsOne : Obligations.PiecesOfDataActAsOne := by
  intro s front back
  refine ⟨⟨_, _, _, s.accepts front, (s.put front).accepts back, exec_put s _, ?_, exec_put s front, rfl,
    exec_put _ back, rfl, ?_⟩, ⟨_, _, _, s.accepts front, (s.put front).accepts back, exec_wtext s _, ?_,
    exec_wtext s front, rfl, exec_wtext _ back, ?_, ?_⟩⟩
  · rw [State.ret_result, s.accepts_append]
  · rw [State.ret_put, ← State.put_append]
    rfl
  · rw [State.ret_result, s.accepts_append]
  · exact congrArg OpResult.count (s.accepts_enqueue front back)
  · rw [State.ret_enqueue, s.enqueue_append]
    exact congrArg _ (congrArg OpResult.count (s.accepts_enqueue front back))

end Sys2Proof.Machine
end

section
/-! PROOFS. The bridge's statements (spec/41_bridge.md R121 to R127): RXRDY on a full and on an open ring, TXRDY on an empty
and on a filled one, WTEXT, and the byte sequence that a run in LOOPBACK keeps. -/

namespace Sys2Proof.Machine

variable {s : State}

theorem exec_rxrdy (s : State) : exec .rxrdy s = .next (s.receive.ret .none) := rfl

theorem exec_txrdy (s : State) : exec .txrdy s = .next (s.transmit.ret .none) := rfl

/-! RXRDY -/

/-- Settles O10: it is the full case of RXRDY. -/
theorem rxrdyOnFullRingSuspends : Obligations.RxrdyOnFullRingSuspends := fun s hfull => by
  rw [exec_rxrdy, State.receive_full s hfull]
  rfl

/-- Reading the transport leaves the ring alone, so a chunk is queued in it as its PUT would be (R122). -/
theorem State.readDone_put_ring (s : State) (data : List Byte) : (s.readDone.put data).ring = (s.put data).ring :=
  State.put_ring_congr rfl rfl data

theorem State.accepts_chunk (s : State) : s.accepts (s.chunk s.readAsk) = (s.chunk s.readAsk).length :=
  s.readDone_accepts

@[simp] theorem State.ret_reads (s : State) (r : OpResult) : (s.ret r).reads = s.reads := rfl

@[simp] theorem State.ret_dispatched (s : State) (r : OpResult) : (s.ret r).dispatched = s.dispatched := rfl

/-- The one call a read adds to the observer's record, among the notes and enables of a queued chunk. -/
theorem State.readDone_reads (s : State) : s.readDone.reads = s.reads ++ [(s.readAsk, s.chunk s.readAsk)] := by
  simp only [State.readDone, State.reads]
  split <;> simp

/-- Settles O11: RXRDY in LOOPBACK is the `Enqueue` of the chunk, all of which PUT accepts. -/
theorem rxrdyQueuesWhatItReadsInLoopback : Obligations.RxrdyQueuesWhatItReadsInLoopback := by
  intro s h hsink hopen
  have hask : min (s.cfg.ringCap - s.ring.count) s.cfg.rxBurst = s.readAsk := rfl
  simp only [hask, ← s.chunk_eq]
  have hrecv := s.receive_loopback hopen hsink
  have hall := s.accepts_chunk
  refine ⟨_, _, exec_rxrdy s, exec_put s _, congrArg _ hall, ?_, ?_, ?_⟩
  · have hsome : decide (0 < (s.chunk s.readAsk).length) = !(s.chunk s.readAsk).isEmpty := by
      cases s.chunk s.readAsk <;> rfl
    rw [hrecv, State.enqueue_eq, s.readDone_put_ring, s.readDone_accepts, Nat.sub_self, hsome, s.length_chunk]
    rfl
  · rw [State.content_ret, hrecv, s.readDone.content_enqueue h, s.readDone_accepts, List.take_length]
    rfl
  · rw [State.ret_reads, hrecv, State.enqueue_reads, s.readDone_reads]

/-- Settles O12: RXRDY in CONSOLE feeds the chunk, which is one FEED instruction a byte. -/
theorem rxrdyFeedsEachByteInConsole : Obligations.RxrdyFeedsEachByteInConsole := by
  intro s hsink hopen
  have hask : min (s.cfg.ringCap - s.ring.count) s.cfg.rxBurst = s.readAsk := rfl
  simp only [hask, ← s.chunk_eq, s.length_chunk]
  obtain ⟨u, hrun, hu⟩ := execAll_feedInstr s.readDone (s.chunk s.readAsk) hsink
  refine ⟨u, hrun, ?_⟩
  rw [exec_rxrdy, s.receive_console hopen hsink, ← hu]
  rfl

/-! TXRDY -/

/-- A pop of nothing leaves the ring as it is, the read cursor being in range. -/
theorem State.pop_eq_self (h : s.RingInv) {most : Nat} (hnone : min most s.ring.count = 0) : s.pop most = s := by
  simp [State.pop, hnone, Nat.mod_eq_of_lt h.rd_lt_ringCap]

/-- Settles O14: nothing is popped. -/
theorem txrdyOnEmptyRingDisablesTransmit : Obligations.TxrdyOnEmptyRingDisablesTransmit := by
  intro s h hempty
  have hnone : min s.cfg.txBurst s.ring.count = 0 := by omega
  rw [exec_txrdy, s.transmit_empty hnone, State.pop_eq_self h hnone]
  rfl

/-- Settles O15: the pop takes the front of the queue, and what is written, lost and resumed is TXRDY's other case. -/
theorem txrdySendsOldestBytesAndResumes : Obligations.TxrdySendsOldestBytesAndResumes := by
  intro s hcfg h hpos
  obtain ⟨-, -, hburst, -⟩ := hcfg
  have hsome : min s.cfg.txBurst s.ring.count ≠ 0 := by omega
  have hout : s.content.take s.cfg.txBurst = s.front s.cfg.txBurst := (s.front_eq_take _).symm
  have hlen := s.length_front s.cfg.txBurst
  simp only [hout]
  refine ⟨_, exec_txrdy s, ?_, ?_⟩
  · rw [State.content_ret, s.transmit_eq hsome, ← s.content_pop]
    rfl
  · rw [s.transmit_eq hsome, State.pop, ← hlen]
    rfl

/-- Settles O18: a suspended ring is full, hence not empty, so TXRDY pops and resumes. -/
theorem suspendedBridgeResumesOnDrain : Obligations.SuspendedBridgeResumesOnDrain := by
  intro s hs hb hthrottle
  obtain ⟨⟨hcap, -, hburst, -⟩, -, -⟩ := hs
  obtain ⟨-, htx, hfull, -⟩ := hb
  have hcount := hfull hthrottle
  have hsome : min s.cfg.txBurst s.ring.count ≠ 0 := by omega
  refine ⟨htx (by omega), beq_iff_eq.mpr hcount, _, exec_txrdy s, ?_⟩
  rw [s.transmit_eq hsome]
  refine ⟨rfl, ?_, ?_⟩
  · simp [hthrottle]
  · simp only [State.ret_ring, State.pop_ring_count]
    omega

/-! WTEXT -/

/-- Settles O16: WTEXT is `Enqueue`, and `Enqueue` leaves the ring PUT leaves. -/
theorem wtextQueuesAndCountsLoss : Obligations.WtextQueuesAndCountsLoss := fun s data =>
  ⟨_, exec_put s data, by
    rw [exec_wtext, s.enqueue_eq, State.enqueueLog, ← List.append_assoc]
    rfl⟩

/-! LOOPBACK -/

/-- The bytes on their way through the block in LOOPBACK: sent, queued, and waiting in the transport (R127 P2). -/
def State.inTransit (s : State) : List Byte := s.txlog ++ s.content ++ s.rxq

/-- What an uncut event in LOOPBACK keeps. -/
structure State.LoopbackKeeps (s t : State) : Prop where
  inv : t.Inv
  cfg : t.cfg = s.cfg
  inTransit : t.inTransit = s.inTransit
  putDrop : t.putDrop = s.putDrop
  txDrop : t.txDrop = s.txDrop

theorem receive_loopbackKeeps (hs : s.Inv) (hsink : s.cfg.sink = .loopback) : s.LoopbackKeeps s.receive := by
  by_cases hfull : s.space = 0
  · rw [s.receive_full hfull]
    exact ⟨State.inv_congr rfl rfl rfl rfl rfl hs, rfl, rfl, rfl, rfl⟩
  · refine ⟨State.inv_receive hs, ?_, ?_, ?_, ?_⟩ <;> rw [s.receive_loopback hfull hsink]
    · rw [State.enqueue_cfg]; rfl
    · have hcontent : s.readDone.content = s.content := rfl
      rw [State.inTransit, s.readDone.content_enqueue hs.2.1, s.readDone_accepts, List.take_length, hcontent,
        State.enqueue_txlog, State.enqueue_rxq]
      calc s.txlog ++ (s.content ++ s.chunk s.readAsk) ++ s.rxq.drop (s.readCount s.readAsk)
          = s.txlog ++ s.content ++ (s.chunk s.readAsk ++ s.rxq.drop (s.readCount s.readAsk)) := by
            simp only [List.append_assoc]
        _ = s.inTransit := by rw [s.chunk_append_drop, State.inTransit]
    · rw [State.enqueue_putDrop, s.readDone_accepts, Nat.sub_self]; rfl
    · rw [State.enqueue_txDrop]; rfl

theorem transmit_loopbackKeeps (hs : s.Inv) (hdraw : s.cfg.txBurst ≤ s.draws.write) : s.LoopbackKeeps s.transmit := by
  have hinv := State.inv_transmit hs
  by_cases hnone : min s.cfg.txBurst s.ring.count = 0
  · rw [s.transmit_empty hnone, State.pop_eq_self hs.2.1 hnone] at hinv ⊢
    exact ⟨hinv, rfl, rfl, rfl, rfl⟩
  · have hwhole : s.writeCount (s.front s.cfg.txBurst) = (s.front s.cfg.txBurst).length :=
      Nat.min_eq_right (by rw [s.length_front]; omega)
    have hcontent : s.transmit.content = s.content.drop s.cfg.txBurst := by
      rw [s.transmit_eq hnone, ← s.content_pop]; rfl
    refine ⟨hinv, ?_, ?_, ?_, ?_⟩
    · rw [s.transmit_eq hnone]
    · rw [State.inTransit, hcontent, s.transmit_eq hnone, hwhole, List.take_length, s.front_eq_take, State.inTransit]
      simp only [List.append_assoc]
      rw [← List.append_assoc (s.content.take _), List.take_append_drop]
    · rw [s.transmit_eq hnone]
    · rw [s.transmit_eq hnone, hwhole, Nat.sub_self]; rfl

theorem State.LoopbackKeeps.trans {s t u : State} (h : s.LoopbackKeeps t) (k : t.LoopbackKeeps u) :
    s.LoopbackKeeps u :=
  ⟨k.inv, k.cfg.trans h.cfg, k.inTransit.trans h.inTransit, k.putDrop.trans h.putDrop, k.txDrop.trans h.txDrop⟩

theorem State.LoopbackKeeps.ret {s t : State} (h : s.LoopbackKeeps t) (r : OpResult) : s.LoopbackKeeps (t.ret r) :=
  ⟨State.inv_congr rfl rfl rfl rfl rfl h.inv, h.cfg, h.inTransit, h.putDrop, h.txDrop⟩

theorem State.LoopbackKeeps.of_draws {s t : State} {d : Draws} (h : State.LoopbackKeeps { s with draws := d } t) :
    s.LoopbackKeeps t :=
  ⟨h.inv, h.cfg, h.inTransit, h.putDrop, h.txDrop⟩

/-- One event of a run in LOOPBACK, under its own draws: an RXRDY, or a TXRDY whose write is not cut short. -/
theorem exec_loopbackKeeps (hs : s.Inv) (hsink : s.cfg.sink = .loopback) {i : Instr} {d : Draws}
    (hi : i = .rxrdy ∨ (i = .txrdy ∧ s.cfg.txBurst ≤ d.write)) :
    ∃ t, exec i { s with draws := d } = .next t ∧ s.LoopbackKeeps t := by
  have hs' : State.Inv { s with draws := d } := State.inv_congr (s := s) rfl rfl rfl rfl rfl hs
  rcases hi with rfl | ⟨rfl, hdraw⟩
  · exact ⟨_, exec_rxrdy _, .of_draws ((receive_loopbackKeeps hs' hsink).ret .none)⟩
  · exact ⟨_, exec_txrdy _, .of_draws ((transmit_loopbackKeeps hs' hdraw).ret .none)⟩

/-- Settles O20: by induction over the events, each of which keeps the bytes in transit. -/
theorem loopbackKeepsEveryByteInOrder : Obligations.LoopbackKeepsEveryByteInOrder := by
  intro s events hs hsink hevents
  suffices h : ∃ t, execTrace events s = .next t ∧ s.LoopbackKeeps t by
    obtain ⟨t, hrun, hkeeps⟩ := h
    exact ⟨t, hrun, hkeeps.inv, hkeeps.inTransit, hkeeps.putDrop, hkeeps.txDrop⟩
  induction events generalizing s with
  | nil => exact ⟨s, rfl, hs, rfl, rfl, rfl, rfl⟩
  | cons e events ih =>
    obtain ⟨he, hrest⟩ := List.forall_mem_cons.mp hevents
    obtain ⟨t, hstep, hkeeps⟩ := exec_loopbackKeeps hs hsink he
    obtain ⟨u, hrun, hkeeps'⟩ := ih t hkeeps.inv (hkeeps.cfg ▸ hsink) (hkeeps.cfg ▸ hrest)
    exact ⟨u, by simp only [execTrace, hstep, hrun], hkeeps.trans hkeeps'⟩

end Sys2Proof.Machine
end

section
/-! PROOFS. The statements of the framer and the dispatcher (spec/42_framer.md R141 to R150): a terminator on an empty line
and on one that holds text, a line typed from empty, how a line splits, how a token is looked up, and what DISPATCH does
in either case. -/

namespace Sys2Proof.Machine

variable {s : State}

theorem exec_feedTerm (hs : s.cfg.sink = .console) (b : Byte) : exec (.feedTerm b) s = .next (s.feedTerm.ret .none) :=
  ifFramer_of_console hs _

theorem exec_dispatch (hs : s.cfg.sink = .console) (line : List Byte) :
    exec (.dispatch line) s = .next ((s.dispatch line).ret .none) :=
  ifFramer_of_console hs _

/-- Settles O32: every FEED and DISPATCH goes through `ifFramer`, which refuses where there is none. -/
theorem framerIsAbsentInLoopback : Obligations.FramerIsAbsentInLoopback := by
  intro i s hsink hop
  have habsent : ∀ t, ifFramer s t = .refused .framerAbsent := fun t => by rw [ifFramer, hsink]
  cases i with
  | feedTerm | feedErase | feedPrint | feedOther | dispatch => exact habsent _
  | _ => simp [Instr.opcode] at hop

/-! The three cases of a terminator -/

theorem State.feedTerm_of_pos (h : 0 < s.line.cursor) :
    s.feedTerm = ((s.dispatch s.lineText).enqueue s.cfg.termEcho).setCursor 0 :=
  if_pos h

/-- With the cursor at 0, setting it to 0 changes nothing. -/
theorem State.setCursor_zero (h : s.line.cursor = 0) : s.setCursor 0 = s := by
  obtain ⟨_, _, _, _, _, _, _, ⟨_, cursor⟩, _, _, _, _, _, _, _, _, _, _, _, _⟩ := s
  cases h
  rfl

theorem State.feedTerm_empty_echo (h : s.line.cursor = 0) (he : s.cfg.echoEmptyTerm = true) :
    s.feedTerm = s.enqueue s.cfg.termEcho := by
  rw [State.feedTerm, if_neg h.not_gt, if_pos he, State.setCursor_zero (by rw [State.enqueue_line, h])]

theorem State.feedTerm_empty_silent (h : s.line.cursor = 0) (he : s.cfg.echoEmptyTerm = false) : s.feedTerm = s := by
  rw [State.feedTerm, if_neg h.not_gt, if_neg (by simp [he]), State.setCursor_zero h]

/-- Settles O24: by the setting of ECHO_EMPTY_TERM; queuing the echo dispatches nothing. -/
theorem feedTermOnEmptyLineDispatchesNothing : Obligations.FeedTermOnEmptyLineDispatchesNothing := by
  intro s b hsink hempty
  rw [exec_feedTerm hsink]
  refine ⟨fun he => ?_, fun he => ?_, fun t ht => ?_⟩
  · rw [State.feedTerm_empty_echo hempty he]
    exact ⟨_, exec_wtext s _, rfl⟩
  · rw [State.feedTerm_empty_silent hempty he]
    rfl
  · cases ht
    cases he : s.cfg.echoEmptyTerm
    · rw [State.feedTerm_empty_silent hempty he, State.ret_dispatched]
    · rw [State.feedTerm_empty_echo hempty he, State.ret_dispatched, State.enqueue_dispatched]

/-- A line whose cells hold some bytes holds that text. -/
theorem State.lineText_eq {text : List Byte} (hlen : text.length = s.line.cursor)
    (hread : ∀ i < text.length, s.line.buf.read i = text[i]?) : s.lineText = text := by
  refine List.ext_getElem (by simp [State.lineText, hlen]) fun i _ hi => ?_
  simp [State.lineText, State.lineCell, hread i hi, hi]

/-- Settles O25: the one case of FEED.TERM that dispatches, whose three parts read no result. -/
theorem feedTermDispatchesThenEchoesThenClears : Obligations.FeedTermDispatchesThenEchoesThenClears := by
  intro s b text hsink hpos hlen hread
  refine ⟨_, _, exec_dispatch hsink text, exec_wtext _ _, ?_⟩
  rw [exec_feedTerm hsink, State.feedTerm_of_pos hpos, State.lineText_eq hlen hread, State.ret_enqueue]
  simp [State.setCursor, s.dispatch_line, State.ret]

/-! Typing a line -/

/-- The bytes of a line depend on the line and on what its unwritten cells hold. -/
theorem State.lineText_congr {s t : State} (hl : t.line = s.line) (he : t.epoch = s.epoch) : t.lineText = s.lineText := by
  have hcell : t.lineCell = s.lineCell := by
    funext i
    rw [State.lineCell, State.lineCell, hl, he]
  rw [State.lineText, State.lineText, hcell, hl]

@[simp] theorem State.length_lineText (s : State) : s.lineText.length = s.line.cursor := by simp [State.lineText]

theorem State.lineText_append (s : State) (b : Byte) : (s.append b).lineText = s.lineText ++ [b] := by
  simp only [State.lineText, State.append_line, List.range_succ, List.map_append, List.map_cons, List.map_nil]
  congr 1
  · refine List.map_congr_left fun i hi => ?_
    have hne : i ≠ s.line.cursor := (List.mem_range.mp hi).ne
    simp [State.lineCell, Memory.read_write_other _ _ hne]
  · simp [State.lineCell]

/-- A printable byte goes to the end of the line, where it is not full; nothing is dispatched (R144). -/
theorem State.feedPrint_lineText (s : State) (b : Byte) (hline : s.line.cursor ≤ s.cfg.lineCap - 1) :
    (s.feedPrint b).lineText = (s.lineText ++ [b]).take (s.cfg.lineCap - 1) ∧
      (s.feedPrint b).dispatched = s.dispatched := by
  by_cases hopen : s.line.cursor < s.cfg.lineCap - 1
  · have hline : ((s.append b).enqueue [b]).lineText = (s.append b).lineText := State.lineText_congr (by simp) (by simp)
    rw [s.feedPrint_of_lt b hopen, State.enqueue_dispatched, hline, s.lineText_append,
      List.take_of_length_le (by simpa using hopen)]
    exact ⟨rfl, rfl⟩
  · have hfull : s.lineText.length = s.cfg.lineCap - 1 := by rw [s.length_lineText]; omega
    rw [s.feedPrint_of_not_lt b hopen, List.take_left' hfull]
    exact ⟨rfl, by simp [State.dispatched]⟩

theorem execAll_append {is js : List Instr} {s t : State} (h : execAll is s = .next t) :
    execAll (is ++ js) s = execAll js t := by
  induction is generalizing s with
  | nil =>
    cases h
    rfl
  | cons i is ih =>
    simp only [List.cons_append, execAll] at h ⊢
    cases hi : exec i s with
    | next u =>
      rw [hi] at h
      exact ih h
    | fault r | refused r =>
      rw [hi] at h
      cases h

/-- A list cut to a length before something is appended and cut again is cut once. -/
theorem take_append_take (n : Nat) (xs ys : List Byte) : (xs.take n ++ ys).take n = (xs ++ ys).take n := by
  simp only [List.take_append, List.take_take, Nat.min_self, List.length_take]
  congr 2
  omega

/-- What typing leaves: the line grown by the text as far as it fits, and no dispatch (R144, R146). -/
theorem execAll_feedPrint (text : List Byte) {s : State} (hsink : s.cfg.sink = .console)
    (hline : s.line.cursor ≤ s.cfg.lineCap - 1) :
    ∃ t, execAll (text.map .feedPrint) s = .next t ∧ t.cfg = s.cfg ∧
      t.lineText = (s.lineText ++ text).take (s.cfg.lineCap - 1) ∧ t.dispatched = s.dispatched := by
  induction text generalizing s with
  | nil => exact ⟨s, rfl, rfl, by rw [List.append_nil, List.take_of_length_le (by simpa using hline)], rfl⟩
  | cons b text ih =>
    set u := (s.feedPrint b).ret .none with hu
    have hcfg : u.cfg = s.cfg := (s.feedPrint_frame b).cfg
    obtain ⟨htext, hdisp⟩ : u.lineText = _ ∧ u.dispatched = _ := s.feedPrint_lineText b hline
    have hcursor : u.line.cursor ≤ u.cfg.lineCap - 1 := by
      rw [← u.length_lineText, htext, hcfg]
      exact List.length_take_le ..
    obtain ⟨t, hrun, htcfg, httext, htdisp⟩ := ih (hcfg ▸ hsink) hcursor
    refine ⟨t, ?_, htcfg.trans hcfg, ?_, htdisp.trans hdisp⟩
    · simp only [List.map_cons, execAll, exec_feedPrint hsink, ← hu, hrun]
    · rw [httext, htext, hcfg, take_append_take, List.append_assoc, List.singleton_append]

/-- A terminator on a line that holds text dispatches that text once and leaves the line empty (R142). -/
theorem State.feedTerm_dispatched (h : 0 < s.line.cursor) :
    s.feedTerm.line.cursor = 0 ∧
      s.feedTerm.dispatched = s.dispatched ++ [(tokenOf s.lineText, argsOf s.lineText)] := by
  rw [State.feedTerm_of_pos h]
  refine ⟨rfl, ?_⟩
  calc (((s.dispatch s.lineText).enqueue s.cfg.termEcho).setCursor 0).dispatched
      = ((s.dispatch s.lineText).enqueue s.cfg.termEcho).dispatched := rfl
    _ = _ := by rw [State.enqueue_dispatched, (s.dispatch_reads_dispatched _).2]

/-- Settles O26: typing leaves the text's front as the line, and the terminator dispatches the line. -/
theorem typedLineIsDispatchedOnce : Obligations.TypedLineIsDispatchedOnce := by
  intro s text b hs hsink hempty htext _
  obtain ⟨⟨-, -, -, hcap, -⟩, -, ⟨-, -, hline, -⟩, -⟩ := hs
  obtain ⟨t, hrun, hcfg, hline', hdisp⟩ := execAll_feedPrint text hsink hline
  have hnone : s.lineText = [] := List.eq_nil_of_length_eq_zero (by rw [s.length_lineText, hempty])
  rw [hnone, List.nil_append] at hline'
  have hpos : 0 < t.line.cursor := by
    have htext_pos := List.length_pos_of_ne_nil htext
    rw [← t.length_lineText, hline', List.length_take]
    omega
  obtain ⟨hzero, honce⟩ := State.feedTerm_dispatched hpos
  have hsink' : t.cfg.sink = .console := hcfg ▸ hsink
  refine ⟨t.feedTerm.ret .none, ?_, hzero, ?_⟩
  · simp only [execAll_append hrun, execAll, exec_feedTerm hsink']
  · rw [State.ret_dispatched, honce, hdisp, hline']

/-! Lookup -/

/-- What lookup gives: the first entry whose folded name is the folded token (R148). -/
theorem findEntry_eq_some_iff {table : List CommandEntry} {token : List Byte} {e : CommandEntry} :
    findEntry table token = some e ↔
      ∃ before after, table = before ++ e :: after ∧ fold e.name = fold token ∧
        ∀ x ∈ before, fold x.name ≠ fold token := by
  simp only [findEntry, List.find?_eq_some_iff_append, beq_iff_eq, Bool.not_eq_true', beq_eq_false_iff_ne]
  constructor
  · rintro ⟨he, before, after, htable, hbefore⟩
    exact ⟨before, after, htable, he, hbefore⟩
  · rintro ⟨before, after, htable, he, hbefore⟩
    exact ⟨he, before, after, htable, hbefore⟩

theorem findEntry_eq_none_iff {table : List CommandEntry} {token : List Byte} :
    findEntry table token = none ↔ ∀ e ∈ table, fold e.name ≠ fold token := by
  simp [findEntry, List.find?_eq_none]

/-- A folded byte is no capital (R148). -/
theorem foldByte_foldByte (b : Byte) : foldByte (foldByte b) = foldByte b := by
  simp only [foldByte]
  split
  · next h =>
    have hsum : (b + 0x20#8).toNat = b.toNat + 0x20 := by
      rw [BitVec.toNat_add, BitVec.toNat_ofNat]
      omega
    rw [if_neg (by omega)]
  · rfl

theorem fold_fold (s : List Byte) : fold (fold s) = fold s := by
  simp [fold, Function.comp_def, foldByte_foldByte]

theorem findEntry_fold (table : List CommandEntry) (token : List Byte) :
    findEntry table (fold token) = findEntry table token := by
  simp only [findEntry, fold_fold]

/-- Settles O30: by the two directions of the first match; a name R7 allows is not empty, folded or not. -/
theorem lookupIsFirstCaseInsensitiveMatch : Obligations.LookupIsFirstCaseInsensitiveMatch := by
  refine ⟨fun b => rfl, fun table token => (findEntry_fold table token).symm, fun _ _ _ => findEntry_eq_some_iff,
    fun table htable => findEntry_eq_none_iff.mpr fun e he hname => ?_⟩
  have hne : e.name ≠ [] := by
    obtain ⟨hempty, -⟩ := Bool.and_eq_true_iff.mp (List.all_eq_true.mp htable e he)
    simpa using hempty
  exact hne (List.map_eq_nil_iff.mp hname)

/-! DISPATCH -/

theorem State.dispatch_unknown {line : List Byte} (h : findEntry s.cfg.cmdTable (tokenOf line) = none) :
    s.dispatch line =
      ((s.say (.dispatch (tokenOf line) (argsOf line))).note .unknownCommand).enqueue s.cfg.unknownMsg := by
  simp only [State.dispatch, h]

theorem State.dispatch_known {line : List Byte} {e : CommandEntry}
    (h : findEntry s.cfg.cmdTable (tokenOf line) = some e) :
    s.dispatch line =
      State.runHandler (e.handler.progFor (argsOf line)) 0 (s.say (.dispatch (tokenOf line) (argsOf line))) := by
  simp only [State.dispatch, h]

/-- Settles O27: lookup gives nothing, so DISPATCH is the dispatch, the note and the `Enqueue`. -/
theorem unknownCommandQueuesDiagnostic : Obligations.UnknownCommandQueuesDiagnostic := by
  intro s line hsink hnone
  have hlog : (s.say (.dispatch (tokenOf line) (argsOf line))).note .unknownCommand =
      { s with log := s.log ++ [.dispatch (tokenOf line) (argsOf line), .note .unknownCommand] } := by
    simp [State.note, State.say]
  refine ⟨_, exec_wtext _ _, ?_⟩
  rw [exec_dispatch hsink, State.dispatch_unknown (findEntry_eq_none_iff.mpr hnone), hlog]
  rfl

/-- An outcome as the handler that issued the operation sees it: it goes on from `u` having seen `saw`, the result port left
as it was, or it is refused and passed over (R150, R151; log 16). -/
def HandlerGoesOn (s : State) (last : Nat) (outcome : Host.Outcome State Fault Refusal) (saw : Nat) (u : State) : Prop :=
  (∃ t, outcome = .next t ∧ t.result.seen last = saw ∧ { t with result := s.result } = u) ∨
    (∃ r, outcome = .refused r) ∧ saw = last ∧ u = s

theorem handlerGoesOn_onChannel (i last : Nat) {u : State} (hres : u.result = s.result) :
    HandlerGoesOn s last (onChannel i s u) last (if i < s.cfg.nCh then u else s) := by
  unfold onChannel
  by_cases hi : i < s.cfg.nCh
  · rw [if_pos hi, if_pos hi]
    exact .inl ⟨_, rfl, rfl, by rw [← hres]; rfl⟩
  · rw [if_neg hi, if_neg hi]
    exact .inr ⟨⟨_, rfl⟩, rfl, rfl⟩

/-- A handler's operation is its instruction (R150). -/
theorem handlerGoesOn_exec (s : State) (o : HandlerOp) (last : Nat) :
    HandlerGoesOn s last (exec (handlerInstr o) s) (s.handlerSaw last o) (s.handlerOp o) := by
  cases o with
  | wtext data => exact .inl ⟨_, exec_wtext s data, rfl, by rw [← (s.enqueue_frame data).result]; rfl⟩
  | chen i => exact handlerGoesOn_onChannel i last (s.chen_frame i).result
  | chdis i => exact handlerGoesOn_onChannel i last (s.chdis_frame i).result
  | pinset i v => exact handlerGoesOn_onChannel i last (s.pinset_frame i v).result
  | chper i p =>
    have hstep := handlerGoesOn_onChannel i last (s.chper_frame i p).result
    simp only [handlerInstr, exec, execChper, State.handlerOp, State.handlerSaw]
    by_cases hp : p < 2 ^ s.cfg.tsW
    · simpa only [hp, and_true, if_true] using hstep
    · simp only [hp, and_false, if_false]
      exact .inr ⟨⟨_, rfl⟩, rfl, rfl⟩

/-- A handler's call played by `exec` is the call (R150). -/
theorem handlerByExec_eq (p : HandlerProg) (last : Nat) (s : State) : handlerByExec p last s = State.runHandler p last s := by
  induction p generalizing last s with
  | done => rfl
  | op o next ih =>
    rcases handlerGoesOn_exec s o last with ⟨t, hrun, hsaw, hop⟩ | ⟨⟨r, hrefused⟩, hsaw, hop⟩
    · simp only [handlerByExec, State.runHandler, hrun, hsaw, hop, ih]
    · simp only [handlerByExec, State.runHandler, hrefused, hsaw, hop, ih]
  | ask q yes no ihy ihn => simp only [handlerByExec, State.runHandler, ihy, ihn]

/-- Settles O28: lookup gives the entry, and its handler's run is the run of its instructions. -/
theorem firstMatchingHandlerRunsItsOperations : Obligations.FirstMatchingHandlerRunsItsOperations := by
  intro s line before after e hsink htable hname hbefore
  rw [exec_dispatch hsink, State.dispatch_known (findEntry_eq_some_iff.mpr ⟨before, after, htable, hname, hbefore⟩),
    handlerByExec_eq]
  rfl

/-! How a line splits -/

theorem eq_false_of_dropWhile_eq_cons {p : Byte → Bool} {line rest : List Byte} {b : Byte}
    (h : line.dropWhile p = b :: rest) : p b = false := by
  simpa [h] using List.head?_dropWhile_not p line

theorem eq_blank_of_mem_takeWhile {line : List Byte} {b : Byte} (h : b ∈ line.takeWhile (· == blank)) : b = blank := by
  simpa using List.mem_takeWhile_imp (p := (· == blank)) h

theorem takeWhile_append_skipBlanks (line : List Byte) : line.takeWhile (· == blank) ++ skipBlanks line = line :=
  List.takeWhile_append_dropWhile

theorem head?_skipBlanks_ne (line : List Byte) : (skipBlanks line).head? ≠ some blank := by
  cases h : skipBlanks line with
  | nil => simp
  | cons b rest => simpa using eq_false_of_dropWhile_eq_cons h

theorem skipBlanks_eq_nil_iff {line : List Byte} : skipBlanks line = [] ↔ ∀ b ∈ line, b = blank := by
  simp [skipBlanks, List.dropWhile_eq_nil_iff]

/-- The token is empty only on a line of blanks: what the leading blanks leave begins with another byte. -/
theorem tokenOf_eq_nil_iff {line : List Byte} : tokenOf line = [] ↔ skipBlanks line = [] := by
  unfold tokenOf
  cases h : skipBlanks line with
  | nil => simp
  | cons b rest =>
    have hb : b ≠ blank := by simpa using eq_false_of_dropWhile_eq_cons h
    simp [hb]

/-- A line behind its token: nothing, or a blank first. -/
def afterToken (line : List Byte) : List Byte := (skipBlanks line).dropWhile (· != blank)

theorem tokenOf_append_afterToken (line : List Byte) : tokenOf line ++ afterToken line = skipBlanks line :=
  List.takeWhile_append_dropWhile

theorem argsOf_eq_skipBlanks_afterToken (line : List Byte) : argsOf line = skipBlanks (afterToken line) := rfl

theorem takeWhile_afterToken_ne_nil {line : List Byte} (h : afterToken line ≠ []) :
    (afterToken line).takeWhile (· == blank) ≠ [] := by
  cases hafter : afterToken line with
  | nil => exact absurd hafter h
  | cons b rest =>
    have hb : b = blank := by simpa using eq_false_of_dropWhile_eq_cons hafter
    simp [hb]

theorem tokenOf_ne_nil_of_afterToken {line : List Byte} (h : afterToken line ≠ []) : tokenOf line ≠ [] := by
  intro htoken
  exact h (by rw [afterToken, tokenOf_eq_nil_iff.mp htoken, List.dropWhile_nil])

/-- Settles O29: the two loops of R147 take off the leading blanks and the gap. -/
theorem lineSplitsIntoTokenAndArguments : Obligations.LineSplitsIntoTokenAndArguments := by
  intro line
  have hargs : argsOf line ≠ [] → afterToken line ≠ [] := fun h hafter => h (by
    rw [argsOf_eq_skipBlanks_afterToken, hafter]
    rfl)
  refine ⟨line.takeWhile (· == blank), (afterToken line).takeWhile (· == blank), ?_,
    fun _ => eq_blank_of_mem_takeWhile, fun _ => eq_blank_of_mem_takeWhile, fun b hb => ?_, head?_skipBlanks_ne _,
    fun h => ⟨takeWhile_afterToken_ne_nil (hargs h), tokenOf_ne_nil_of_afterToken (hargs h)⟩,
    tokenOf_eq_nil_iff.trans skipBlanks_eq_nil_iff⟩
  · rw [argsOf_eq_skipBlanks_afterToken, List.append_assoc, takeWhile_append_skipBlanks, List.append_assoc,
      tokenOf_append_afterToken, takeWhile_append_skipBlanks]
  · have hne : b ≠ blank := by simpa using List.mem_takeWhile_imp (p := (· != blank)) hb
    exact hne

end Sys2Proof.Machine
end

section
/-! PROOFS. The sequencer's statements (spec/43_blink.md R161 to R168, R171): what a TICK does to each channel, in which order
it drives the pins, the elapsed time it compares, a channel that outlasts any TICKs, and the channel commands. -/

namespace Sys2Proof.Machine

variable {s : State}

/-! TICK -/

theorem exec_tick (s : State) : exec .tick s = .next (s.tick.ret .none) := rfl

theorem State.pinOut_length (h : s.ChanInv) : s.pinOut.length = s.ch.length := by
  obtain ⟨-, hpin, -⟩ := h
  rw [hpin, List.length_map]

theorem State.lt_nCh_of_getElem? (h : s.ChanInv) {i : Nat} {c : BlinkChannel} (hc : s.ch[i]? = some c) :
    i < s.cfg.nCh := by
  obtain ⟨hlen, -⟩ := h
  exact hlen ▸ (List.getElem?_eq_some_iff.mp hc).1

/-- What a TICK writes (R161, R194). -/
theorem State.tick_eq (s : State) :
    s.tick =
      { s with
        ch := s.tick.ch, pinOut := s.tick.pinOut, clock := s.nextTime
        draws := { s.draws with clock := s.draws.clock.tail }, log := s.tick.log } :=
  (s.afterNow.tickUpTo_spec s.now s.cfg.nCh).1

/-- A channel that is due toggles: its record and its pin (R161). -/
theorem State.tick_of_due (h : s.ChanInv) {i : Nat} {c : BlinkChannel} (hc : s.ch[i]? = some c)
    (hdue : s.due s.now i = true) :
    s.tick.ch[i]? = some { c with state := !c.state, lastToggle := s.now } ∧ s.tick.pinOut[i]? = some (!c.state) := by
  obtain ⟨-, -, -, hch, hpin, -⟩ := s.afterNow.tickUpTo_spec s.now s.cfg.nCh
  have hi := State.lt_nCh_of_getElem? h hc
  have hpin_lt : i < s.pinOut.length := (State.pinOut_length h) ▸ (List.getElem?_eq_some_iff.mp hc).1
  have hdue' : i < s.cfg.nCh ∧ s.afterNow.due s.now i = true := ⟨hi, hdue⟩
  have hchan : s.afterNow.chan i = c := State.chan_of_getElem? hc
  rw [State.tick, hch, hpin, if_pos hdue', if_pos hdue', hchan, State.afterNow_ch, State.afterNow_pinOut, hc,
    List.getElem?_eq_getElem hpin_lt]
  exact ⟨rfl, rfl⟩

/-- A channel that is not due is left as it is, with its pin (R161). -/
theorem State.tick_of_not_due {i : Nat} (hdue : s.due s.now i = false) :
    s.tick.ch[i]? = s.ch[i]? ∧ s.tick.pinOut[i]? = s.pinOut[i]? := by
  obtain ⟨-, -, -, hch, hpin, -⟩ := s.afterNow.tickUpTo_spec s.now s.cfg.nCh
  have hdue' : ¬(i < s.cfg.nCh ∧ s.afterNow.due s.now i = true) := fun h => absurd (hdue.symm.trans h.2) nofun
  rw [State.tick, hch, hpin, if_neg hdue', if_neg hdue']
  exact ⟨rfl, rfl⟩

/-- Settles O33: by whether the channel is due. -/
theorem tickTogglesExactlyTheDueChannels : Obligations.TickTogglesExactlyTheDueChannels := by
  intro s h
  obtain ⟨-, hlen, hpinlen, -⟩ := s.afterNow.tickUpTo_spec s.now s.cfg.nCh
  refine ⟨_, exec_tick s, ?_, hlen, hpinlen, fun i c hc => ?_⟩
  · conv_lhs => rw [s.tick_eq]
    rfl
  · split
    · next hdue => exact State.tick_of_due h hc ((State.due_iff hc _).mpr hdue)
    · next hdue =>
      obtain ⟨hch, hpin⟩ := State.tick_of_not_due (Bool.eq_false_iff.mpr (mt (State.due_iff hc s.now).mp hdue))
      exact ⟨hch.trans hc, hpin⟩

/-- Settles O34: it is what the loop of TICK adds to the record. -/
theorem tickCallsSetLevelInAscendingOrder : Obligations.TickCallsSetLevelInAscendingOrder := by
  intro s t _ h
  obtain ⟨-, -, -, -, -, hlog⟩ := s.afterNow.tickUpTo_spec s.now s.cfg.nCh
  cases h
  rw [State.ret_log, State.tick, hlog, State.afterNow_log, List.append_assoc]
  rfl

/-- Settles O35: less than a turn of the clock apart, the difference TICK compares is the true one. -/
theorem tickMeasuresTrueElapsedTimeAcrossWrap : Obligations.TickMeasuresTrueElapsedTimeAcrossWrap := by
  intro s i last c h hc hen hper hlast hle hlt
  have helapsed : elapsed s.cfg.tsW s.now c.lastToggle = s.nextTime - last := by
    rw [hlast]
    exact elapsed_of_lt _ _ _ hle hlt
  have hdue := State.due_iff hc s.now
  rw [helapsed] at hdue
  refine ⟨_, exec_tick s, ?_⟩
  cases hd : s.due s.now i
  · obtain ⟨hch, -⟩ := State.tick_of_not_due hd
    have hchan : (s.tick.ret .none).chan i = c := State.chan_of_getElem? (hch.trans hc)
    have hearly : ¬c.periodMs ≤ s.nextTime - last := fun hp => by simp [hdue.mpr ⟨hen, hper, hp⟩] at hd
    rw [hchan]
    exact iff_of_false (by simp) hearly
  · obtain ⟨hch, -⟩ := State.tick_of_due h hc hd
    have hchan : (s.tick.ret .none).chan i = _ := State.chan_of_getElem? hch
    rw [hchan]
    exact iff_of_true rfl (hdue.mp hd).2.2

/-- A TICK keeps a channel that the mux does not select, and its pin (R161, R167). -/
theorem State.tick_of_unselected {i : Nat} (hsel : s.muxSelect i = false) :
    s.tick.ch[i]? = s.ch[i]? ∧ s.tick.pinOut[i]? = s.pinOut[i]? ∧ s.tick.ch.length = s.ch.length := by
  obtain ⟨-, hlen, -⟩ := s.afterNow.tickUpTo_spec s.now s.cfg.nCh
  obtain ⟨hch, hpin⟩ := State.tick_of_not_due (s := s) (i := i) (by simp [State.due, hsel])
  exact ⟨hch, hpin, hlen⟩

theorem State.muxSelect_congr {t : State} {i : Nat} (h : t.ch[i]? = s.ch[i]?) : t.muxSelect i = s.muxSelect i := by
  simp only [State.muxSelect, State.chan, List.getD_eq_getElem?_getD, h]

/-- Settles O42: by induction over the TICKs, each of which leaves the channel unselected. -/
theorem unselectedChannelOutlastsAnyTicks : Obligations.UnselectedChannelOutlastsAnyTicks := by
  rintro s i ticks - hsel
  induction ticks generalizing s with
  | nil => exact ⟨s, rfl, rfl, rfl, rfl⟩
  | cons d ticks ih =>
    set u : State := (State.tick { s with draws := d }).ret .none with hu
    obtain ⟨hch, hpin, hlen⟩ : u.ch[i]? = s.ch[i]? ∧ u.pinOut[i]? = s.pinOut[i]? ∧ u.ch.length = s.ch.length :=
      State.tick_of_unselected (s := { s with draws := d }) hsel
    obtain ⟨t, hrun, htch, htpin, htlen⟩ := ih (s := u) ((State.muxSelect_congr hch).trans hsel)
    exact ⟨t, hrun, htch.trans hch, htpin.trans hpin, htlen.trans hlen⟩

/-! The channel commands -/

/-- Settles O36: `State.chen` on the record listed. -/
theorem chenEnablesAndRestartsInterval : Obligations.ChenEnablesAndRestartsInterval := fun s i c hi hc => by
  rw [exec_eq_of_runs (i := .chen i) hi, effect, State.chen_eq, State.chan_of_getElem? hc]
  rfl

/-- Settles O37: `State.chdis` on the record listed. -/
theorem chdisClearsEnabledOnly : Obligations.ChdisClearsEnabledOnly := fun s i c hi hc => by
  rw [exec_eq_of_runs (i := .chdis i) hi, effect, State.chdis_eq, State.chan_of_getElem? hc]
  rfl

/-- Settles O38: the case of `State.chper` for a period above 0. -/
theorem chperStoresPeriodOnly : Obligations.ChperStoresPeriodOnly := fun s i p c hi hp hpos hc => by
  rw [exec_eq_of_runs (i := .chper i p) ⟨hp, hi⟩, effect, State.chper_pos s i hpos, State.chan_of_getElem? hc]
  rfl

/-- Settles O39: the case of `State.chper` for period 0, which fits any width. -/
theorem chperZeroIsSteadyOn : Obligations.ChperZeroIsSteadyOn := fun s i c hi hc => by
  rw [exec_eq_of_runs (i := .chper i 0) ⟨Nat.two_pow_pos _, hi⟩, effect, State.chper_zero, State.chan_of_getElem? hc]
  rfl

/-- Settles O40: `State.pinset` on the record listed. -/
theorem pinsetDrivesPinAndState : Obligations.PinsetDrivesPinAndState := fun s i v c hi hc => by
  rw [exec_eq_of_runs (i := .pinset i v) hi, effect, State.pinset_eq, State.chan_of_getElem? hc]
  rfl

/-- Settles O41: every channel command goes through `onChannel`, CHPER only with a period that can be stored. -/
theorem commandOnMissingChannelIsRefused : Obligations.CommandOnMissingChannelIsRefused := by
  intro s i p v
  refine ⟨fun hi => ?_, fun hp => if_neg hp.not_gt⟩
  have hmissing : ∀ t, onChannel i s t = .refused (.channelOutOfRange i) := fun t => if_neg hi.not_gt
  exact ⟨hmissing _, hmissing _, hmissing _, fun hp => (if_pos hp).trans (hmissing _)⟩

end Sys2Proof.Machine
end

section
/-! PROOFS. What holds of every operation (spec/40_fifo.md R107; spec/41_bridge.md R126, R127; spec/42_framer.md R151;
spec/60_exceptions.md R194): who may take bytes out of the ring, who reads the transport, who moves the throttle, what the
console leaves alone, what the two contexts share, and what no operation writes. -/

namespace Sys2Proof.Machine

/-! What the console keeps, said once for every property -/

/-- A property that each primitive of the framer, the dispatcher and a handler keeps. -/
structure KeptByConsole (P : State → Prop) : Prop where
  say : ∀ s token args, P s → P (s.say (.dispatch token args))
  note : ∀ s c, P s → P (s.note c)
  enqueue : ∀ s data, P s → P (s.enqueue data)
  chen : ∀ s i, P s → P (s.chen i)
  chdis : ∀ s i, P s → P (s.chdis i)
  chper : ∀ s i p, P s → P (s.chper i p)
  pinset : ∀ s i v, P s → P (s.pinset i v)
  setCursor : ∀ s n, P s → P (s.setCursor n)
  append : ∀ s b, P s → P (s.append b)

namespace KeptByConsole

variable {P : State → Prop} {s : State}

theorem dispatch (k : KeptByConsole P) (line : List Byte) (hs : P s) : P (s.dispatch line) :=
  State.dispatch_induct P k.say k.note k.enqueue
    (State.handlerOp_induct P k.enqueue (fun t i _ => k.chen t i) (fun t i _ => k.chdis t i)
      (fun t i p _ _ => k.chper t i p) fun t i v _ => k.pinset t i v) s line hs

theorem feedTerm (k : KeptByConsole P) (hs : P s) : P s.feedTerm := by
  simp only [State.feedTerm]
  split
  · exact k.setCursor _ _ (k.enqueue _ _ (k.dispatch _ hs))
  · split
    · exact k.setCursor _ _ (k.enqueue _ _ hs)
    · exact k.setCursor _ _ hs

theorem feedErase (k : KeptByConsole P) (hs : P s) : P s.feedErase := by
  simp only [State.feedErase]
  split
  · exact k.enqueue _ _ (k.setCursor _ _ hs)
  · exact hs

theorem feedPrint (k : KeptByConsole P) (b : Byte) (hs : P s) : P (s.feedPrint b) := by
  simp only [State.feedPrint]
  split
  · exact k.enqueue _ _ (k.append _ _ hs)
  · exact k.note _ _ hs

theorem feed (k : KeptByConsole P) (b : Byte) (hs : P s) : P (s.feed b) := by
  simp only [State.feed]
  split
  · exact k.feedTerm hs
  · exact k.feedErase hs
  · exact k.feedPrint b hs
  · exact hs

theorem deliver (k : KeptByConsole P) (chunk : List Byte) (hs : P s) : P (s.deliver chunk) := by
  simp only [State.deliver]
  split
  · exact k.enqueue _ _ hs
  · exact State.feedAll_induct P (fun _ b => k.feed b) s chunk hs

end KeptByConsole

/-! What the console only adds to -/

/-- What nothing but a GET, a TXRDY or an RXRDY on a full ring lowers, clears or rewrites: the count, the loss counter, the
transmit enable and the observer's record, to which no read of the transport is added. -/
structure State.Grows (s t : State) : Prop where
  count : s.ring.count ≤ t.ring.count
  putDrop : s.putDrop ≤ t.putDrop
  txNotifyEn : s.txNotifyEn = true → t.txNotifyEn = true
  log : ∃ added, t.log = s.log ++ added ∧ added.filterMap LogEntry.asRead = []

theorem State.Grows.refl (s : State) : s.Grows s := ⟨le_rfl, le_rfl, id, [], by simp⟩

theorem State.Grows.trans {s t u : State} (h : s.Grows t) (k : t.Grows u) : s.Grows u := by
  obtain ⟨a, ha, ha'⟩ := h.log
  obtain ⟨b, hb, hb'⟩ := k.log
  exact ⟨h.count.trans k.count, h.putDrop.trans k.putDrop, k.txNotifyEn ∘ h.txNotifyEn, a ++ b, by
    rw [hb, ha, List.append_assoc], by rw [List.filterMap_append, ha', hb', List.append_nil]⟩

/-- What writes neither the ring, the counter nor the enable grows the state if it only adds to the record. -/
theorem State.Grows.of_log {s t : State} (added : List LogEntry) (hr : t.ring = s.ring) (hp : t.putDrop = s.putDrop)
    (htx : t.txNotifyEn = s.txNotifyEn) (hlog : t.log = s.log ++ added) (hread : added.filterMap LogEntry.asRead = []) :
    s.Grows t :=
  ⟨hr ▸ le_rfl, hp ▸ le_rfl, fun h => htx.trans h, added, hlog, hread⟩

theorem State.Grows.log_prefix {s t : State} (h : s.Grows t) : s.log <+: t.log := by
  obtain ⟨added, hlog, -⟩ := h.log
  exact ⟨added, hlog.symm⟩

theorem State.Grows.reads {s t : State} (h : s.Grows t) : t.reads = s.reads := by
  obtain ⟨added, hlog, hread⟩ := h.log
  rw [State.reads, hlog, List.filterMap_append, hread, List.append_nil, State.reads]

section
variable (s : State)

theorem State.enqueue_grows (data : List Byte) : s.Grows (s.enqueue data) := by
  refine ⟨?_, ?_, fun h => ?_, s.enqueueLog data, s.enqueue_log data, ?_⟩
  · rw [State.enqueue_ring, State.put_ring_count]
    exact Nat.le_add_right ..
  · rw [State.enqueue_putDrop]
    exact Nat.le_add_right ..
  · rw [State.enqueue_txNotifyEn, h, Bool.true_or]
  · simp only [State.enqueueLog]
    split <;> split <;> simp

theorem State.chper_grows (i p : Nat) : s.Grows (s.chper i p) := by
  by_cases h : p = 0
  · subst h
    exact .of_log [.setLevel i true] rfl rfl rfl rfl rfl
  · rw [s.chper_pos i h]
    exact .of_log [] rfl rfl rfl (by simp) rfl

theorem State.tickChan_grows (now i : Nat) : s.Grows (s.tickChan now i) := by
  rw [State.tickChan_eq]
  split
  · exact .of_log [.setLevel i _] rfl rfl rfl rfl rfl
  · exact .refl s

theorem State.tick_grows : s.Grows s.tick :=
  State.tickUpTo_induct s.Grows s.now s.cfg.nCh (fun t i _ h => h.trans (t.tickChan_grows _ i)) s.afterNow
    (.of_log [.now s.now] rfl rfl rfl rfl rfl)

end

/-- Everything the console does grows the state. -/
theorem keptByConsole_grows (s : State) : KeptByConsole s.Grows where
  say _ token args h := h.trans (.of_log [.dispatch token args] rfl rfl rfl rfl rfl)
  note _ c h := h.trans (.of_log [.note c] rfl rfl rfl rfl rfl)
  enqueue t data h := h.trans (t.enqueue_grows data)
  chen t _ h := h.trans (.of_log [.now t.now] rfl rfl rfl rfl rfl)
  chdis _ _ h := h.trans (.of_log [] rfl rfl rfl (List.append_nil _).symm rfl)
  chper t i p h := h.trans (t.chper_grows i p)
  pinset _ i v h := h.trans (.of_log [.setLevel i v] rfl rfl rfl rfl rfl)
  setCursor _ _ h := h.trans (.of_log [] rfl rfl rfl (List.append_nil _).symm rfl)
  append _ _ h := h.trans (.of_log [] rfl rfl rfl (List.append_nil _).symm rfl)

/-- Every instruction but GET and the two events grows the state. -/
theorem exec_grows {i : Instr} {s t : State} (h : exec i s = .next t) (hrx : i ≠ .rxrdy) (htx : i ≠ .txrdy)
    (hget : ∀ most, i ≠ .get most) : s.Grows t := by
  have k := keptByConsole_grows s
  have hs := State.Grows.refl s
  refine exec_next_induct (P := s.Grows)
    (fun u r hu => hu.trans (.of_log [] rfl rfl rfl (List.append_nil _).symm rfl)) h fun _ => ?_
  cases i with
  | rxrdy => exact absurd rfl hrx
  | txrdy => exact absurd rfl htx
  | get most => exact absurd rfl (hget most)
  | put data => exact ⟨Nat.le_add_right .., le_rfl, id, [], by simp [effect], rfl⟩
  | space | used | feedOther b => exact hs
  | wtext data => exact k.enqueue s data hs
  | feedTerm b => exact k.feedTerm hs
  | feedErase b => exact k.feedErase hs
  | feedPrint b => exact k.feedPrint b hs
  | dispatch line => exact k.dispatch line hs
  | tick => exact s.tick_grows
  | chen i => exact k.chen s i hs
  | chdis i => exact k.chdis s i hs
  | chper i p => exact k.chper s i p hs
  | pinset i v => exact k.pinset s i v hs

/-! The two events and GET -/

section
variable {s : State}

/-- An RXRDY on an open ring keeps the console's frame, the bytes it reads apart (R121, R122). -/
theorem State.receive_open_frame (h : s.space ≠ 0) :
    s.readDone.ConsoleFrame s.receive ∧ s.readDone.Grows s.receive := by
  rw [s.receive_open h]
  exact ⟨s.readDone.deliver_frame _, (keptByConsole_grows _).deliver _ (.refl _)⟩

/-- TXRDY leaves the ring as GET of a burst does, whatever is written (R123). -/
theorem State.transmit_ring (s : State) : s.transmit.ring = (s.pop s.cfg.txBurst).ring := by
  by_cases h : min s.cfg.txBurst s.ring.count = 0
  · rw [s.transmit_empty h, State.disableTx_ring]
  · rw [s.transmit_eq h]

/-- RXRDY takes nothing out of the ring (R107). -/
theorem State.receive_ring (s : State) : s.receive.ring.rd = s.ring.rd ∧ s.ring.count ≤ s.receive.ring.count := by
  by_cases hfull : s.space = 0
  · rw [s.receive_full hfull]
    exact ⟨rfl, le_rfl⟩
  · obtain ⟨hframe, hgrows⟩ := State.receive_open_frame hfull
    exact ⟨hframe.rd, hgrows.count⟩

end

theorem tick_ring (s : State) : s.tick.ring = s.ring := by rw [s.tick_eq]

theorem chper_ring (s : State) (i p : Nat) : (s.chper i p).ring = s.ring := by
  simp only [State.chper]
  split <;> rfl

/-- Settles O9: RXRDY and the console only add to the ring, TXRDY and GET only pop it. -/
theorem ringHasOneProducerAndOneConsumer : Obligations.RingHasOneProducerAndOneConsumer := by
  intro i s t h
  refine ⟨fun htx hget => ?_, ?_, ?_⟩
  · by_cases hrx : i = .rxrdy
    · subst hrx
      cases h
      exact s.receive_ring
    · obtain ⟨u, r, hframe, rfl⟩ := exec_frame i s t h hrx htx hget
      exact ⟨hframe.rd, (exec_grows h hrx htx hget).count⟩
  · rintro (rfl | ⟨most, rfl⟩) <;> cases h
    · rw [State.ret_ring, s.transmit_ring]
      exact ⟨rfl, rfl, Nat.sub_le ..⟩
    · exact ⟨rfl, rfl, Nat.sub_le ..⟩
  · intro hi
    obtain ⟨-, rfl⟩ := exec_next_iff.1 h
    rcases hi with rfl | rfl | rfl | ⟨c, rfl⟩ | ⟨c, rfl⟩ | ⟨c, p, rfl⟩ | ⟨c, v, rfl⟩ | ⟨b, rfl⟩
    · rfl
    · rfl
    · exact tick_ring s
    · rfl
    · rfl
    · exact chper_ring s c p
    · rfl
    · rfl

/-! The transport and the throttle -/

/-- TXRDY reads nothing from the transport (R123). -/
theorem State.transmit_reads (s : State) : s.transmit.reads = s.reads ∧ s.transmit.rxq = s.rxq := by
  by_cases h : min s.cfg.txBurst s.ring.count = 0
  · rw [s.transmit_empty h]
    exact ⟨by simp [State.reads], rfl⟩
  · rw [s.transmit_eq h]
    refine ⟨?_, rfl⟩
    simp only [State.reads]
    split_ifs <;> simp

/-- Settles O13: RXRDY on an open ring makes the one read, of its chunk; a full ring has none made. -/
theorem noReadAsksForMoreThanSpace : Obligations.NoReadAsksForMoreThanSpace := by
  intro i s t hcfg h
  cases i with
  | rxrdy =>
    cases h
    by_cases hfull : s.space = 0
    · left
      rw [s.receive_full hfull]
      exact ⟨by simp [State.reads], rfl⟩
    · right
      obtain ⟨hframe, hgrows⟩ := State.receive_open_frame hfull
      obtain ⟨-, hburst, -⟩ := hcfg
      refine ⟨rfl, s.readAsk, s.chunk s.readAsk, ?_, ?_, s.readAsk_le_space, ?_, ?_⟩
      · rw [State.ret_reads, hgrows.reads, s.readDone_reads]
      · unfold State.readAsk
        omega
      · rw [s.length_chunk]
        exact s.readCount_le _
      · rw [State.ret_rxq, hframe.rxq]
        exact (s.chunk_append_drop _).symm
  | txrdy =>
    cases h
    exact .inl s.transmit_reads
  | get most =>
    cases h
    exact .inl ⟨rfl, rfl⟩
  | _ =>
    obtain ⟨u, r, hframe, rfl⟩ := exec_frame _ s t h nofun nofun nofun
    exact .inl ⟨(exec_grows h nofun nofun nofun).reads, hframe.rxq⟩

/-- RXRDY sets the throttle where it finds the ring full and leaves it alone otherwise (R126). -/
theorem State.receive_throttle (s : State) :
    (s.space = 0 ∧ s.receive.throttle = true ∧ s.receive.rxNotifyEn = false) ∨
      (s.space ≠ 0 ∧ s.receive.throttle = s.throttle ∧ s.receive.rxNotifyEn = s.rxNotifyEn) := by
  by_cases hfull : s.space = 0
  · rw [s.receive_full hfull]
    exact .inl ⟨hfull, rfl, rfl⟩
  · obtain ⟨hframe, -⟩ := State.receive_open_frame hfull
    exact .inr ⟨hfull, hframe.throttle, hframe.rxNotifyEn⟩

/-- TXRDY clears the throttle where it pops anything and leaves it alone otherwise (R126). -/
theorem State.transmit_throttle (s : State) :
    (min s.cfg.txBurst s.ring.count ≠ 0 ∧ s.transmit.throttle = false ∧
        s.transmit.rxNotifyEn = (s.rxNotifyEn || s.throttle)) ∨
      (min s.cfg.txBurst s.ring.count = 0 ∧ s.transmit.throttle = s.throttle ∧
        s.transmit.rxNotifyEn = s.rxNotifyEn) := by
  by_cases h : min s.cfg.txBurst s.ring.count = 0
  · rw [s.transmit_empty h]
    exact .inr ⟨h, rfl, rfl⟩
  · rw [s.transmit_eq h]
    exact .inl ⟨h, rfl, rfl⟩

/-- Settles O17: by the two cases of each event; the other operations keep the throttle and the receive enable. -/
theorem throttleChangesOnlyByFullReceiveOrDrain : Obligations.ThrottleChangesOnlyByFullReceiveOrDrain := by
  intro i s t h
  by_cases hrx : i = .rxrdy
  · subst hrx
    cases h
    have hspace : s.cfg.ringCap - s.ring.count = s.space := rfl
    rw [hspace]
    rcases s.receive_throttle with ⟨hfull, hthr, hen⟩ | ⟨hopen, hthr, hen⟩
    · simp [hfull, hthr, hen]
    · simp [hopen, hthr, hen]
  by_cases htx : i = .txrdy
  · subst htx
    cases h
    rcases s.transmit_throttle with ⟨hsome, hthr, hen⟩ | ⟨hnone, hthr, hen⟩
    · cases hpre : s.throttle <;> simp [hsome, hthr, hen, hpre]
    · simp [hnone, hthr, hen]
  have hkeep : t.throttle = s.throttle ∧ t.rxNotifyEn = s.rxNotifyEn := by
    by_cases hget : ∃ most, i = .get most
    · obtain ⟨most, rfl⟩ := hget
      cases h
      exact ⟨rfl, rfl⟩
    · obtain ⟨u, r, hframe, rfl⟩ := exec_frame i s t h hrx htx fun most hm => hget ⟨most, hm⟩
      exact ⟨hframe.throttle, hframe.rxNotifyEn⟩
  exact ⟨fun hi => absurd hi hrx, fun hi => absurd hi htx, fun _ _ => hkeep.1, fun hne => absurd hkeep.2 hne⟩

/-! The console and the contexts -/

/-- Settles O31: the console's frame, what it only grows, and the line that only FEED edits. -/
theorem consoleLeavesThrottleAndTransportAlone : Obligations.ConsoleLeavesThrottleAndTransportAlone := by
  intro i s t hi h
  have hrx : i ≠ .rxrdy := by rintro rfl; simp [Instr.opcode] at hi
  have htx : i ≠ .txrdy := by rintro rfl; simp [Instr.opcode] at hi
  have hget : ∀ most, i ≠ .get most := by rintro most rfl; simp [Instr.opcode] at hi
  have hgrows := exec_grows h hrx htx hget
  have hline : i.opcode ≠ .feed → t.line = s.line := by
    intro hfeed
    obtain ⟨-, rfl⟩ := exec_next_iff.1 h
    cases i with
    | dispatch line => exact s.dispatch_line line
    | wtext data => exact s.enqueue_line data
    | _ => simp_all [Instr.opcode]
  obtain ⟨u, r, hframe, rfl⟩ := exec_frame i s t h hrx htx hget
  exact ⟨hframe.cfg, hframe.rd, hframe.throttle, hframe.rxNotifyEn, hframe.txDrop, hframe.rxq, hframe.txlog,
    hframe.booted, hframe.epoch, hframe.schedule, hline, hgrows.txNotifyEn, hgrows.putDrop⟩

theorem State.transmit_channels (s : State) : s.transmit.ch = s.ch ∧ s.transmit.pinOut = s.pinOut := by
  by_cases h : min s.cfg.txBurst s.ring.count = 0
  · rw [s.transmit_empty h]
    exact ⟨rfl, rfl⟩
  · rw [s.transmit_eq h]
    exact ⟨rfl, rfl⟩

theorem State.receive_channels {s : State} (hsink : s.cfg.sink = .loopback) :
    s.receive.ch = s.ch ∧ s.receive.pinOut = s.pinOut := by
  by_cases hfull : s.space = 0
  · rw [s.receive_full hfull]
    exact ⟨rfl, rfl⟩
  · rw [s.receive_loopback hfull hsink, State.enqueue_ch, State.enqueue_pinOut]
    exact ⟨rfl, rfl⟩

theorem State.feedErase_channels (s : State) : s.feedErase.ch = s.ch ∧ s.feedErase.pinOut = s.pinOut := by
  simp only [State.feedErase]
  split <;> simp

theorem State.feedPrint_channels (s : State) (b : Byte) :
    (s.feedPrint b).ch = s.ch ∧ (s.feedPrint b).pinOut = s.pinOut := by
  simp only [State.feedPrint]
  split <;> simp

theorem State.tick_clock (s : State) : s.tick.clock = s.nextTime := by rw [s.tick_eq]

theorem State.tick_draws (s : State) : s.tick.draws = { s.draws with clock := s.draws.clock.tail } := by rw [s.tick_eq]

/-- Settles O43: the event side queues, pops and edits; TICK and the channel commands write the shared fields. -/
theorem contextsShareOnlyTheChannels : Obligations.ContextsShareOnlyTheChannels := by
  intro i s t h
  obtain ⟨-, rfl⟩ := exec_next_iff.1 h
  constructor
  · intro hi
    cases i with
    | put | get | space | used | feedOther => exact ⟨rfl, rfl⟩
    | wtext data => exact ⟨s.enqueue_ch data, s.enqueue_pinOut data⟩
    | txrdy => exact s.transmit_channels
    | rxrdy => exact State.receive_channels (by simpa [Instr.opcode] using hi)
    | feedErase b => exact s.feedErase_channels
    | feedPrint b => exact s.feedPrint_channels b
    | feedTerm | dispatch | tick | chen | chdis | chper | pinset => simp [Instr.opcode] at hi
  · intro hi
    cases i with
    | tick =>
      simp only [effect, reply, State.ret_clock, State.ret_draws, s.tick_clock, s.tick_draws]
      conv_lhs => rw [s.tick_eq]
      rfl
    | chen | chdis | pinset => rfl
    | chper c p =>
      simp only [effect, reply, State.chper]
      split <;> rfl
    | _ => simp [Instr.opcode] at hi

/-! What no operation writes -/

/-- What every operation leaves alone, and what it only adds to (R32, R40, R199; log 9, log 29). -/
structure State.MachineFrame (s t : State) : Prop where
  cfg : t.cfg = s.cfg
  clock : s.clock ≤ t.clock
  putDrop : s.putDrop ≤ t.putDrop
  txDrop : s.txDrop ≤ t.txDrop
  booted : t.booted = s.booted
  calling : t.calling = s.calling
  epoch : t.epoch = s.epoch
  schedule : t.schedule = s.schedule
  log : s.log <+: t.log

theorem State.MachineFrame.of_console {s u : State} {r : OpResult} (h : s.ConsoleFrame u) (k : s.Grows (u.ret r)) :
    s.MachineFrame (u.ret r) :=
  ⟨h.cfg, h.clock, k.putDrop, h.txDrop.ge, h.booted, h.calling, h.epoch, h.schedule, k.log_prefix⟩

theorem State.receive_machineFrame (s : State) : s.MachineFrame s.receive := by
  by_cases hfull : s.space = 0
  · rw [s.receive_full hfull]
    exact ⟨rfl, le_rfl, le_rfl, le_rfl, rfl, rfl, rfl, rfl, List.prefix_append ..⟩
  · obtain ⟨hframe, hgrows⟩ := State.receive_open_frame hfull
    exact ⟨hframe.cfg, hframe.clock, hgrows.putDrop, hframe.txDrop.ge, hframe.booted, hframe.calling, hframe.epoch,
      hframe.schedule, (List.prefix_append ..).trans hgrows.log_prefix⟩

theorem State.transmit_machineFrame (s : State) : s.MachineFrame s.transmit := by
  by_cases h : min s.cfg.txBurst s.ring.count = 0
  · rw [s.transmit_empty h]
    exact ⟨rfl, le_rfl, le_rfl, le_rfl, rfl, rfl, rfl, rfl, List.prefix_append ..⟩
  · rw [s.transmit_eq h]
    refine ⟨rfl, le_rfl, le_rfl, Nat.le_add_right .., rfl, rfl, rfl, rfl, ?_⟩
    simp only [List.append_assoc]
    exact List.prefix_append ..

theorem exec_machineFrame {i : Instr} {s t : State} (h : exec i s = .next t) : s.MachineFrame t := by
  have hret : ∀ u r, s.MachineFrame u → s.MachineFrame (u.ret r) := fun _ _ ⟨a, b, c, d, e, f, g, k, l⟩ =>
    ⟨a, b, c, d, e, f, g, k, l⟩
  cases i with
  | rxrdy =>
    cases h
    exact hret _ _ s.receive_machineFrame
  | txrdy =>
    cases h
    exact hret _ _ s.transmit_machineFrame
  | get most =>
    cases h
    exact ⟨rfl, le_rfl, le_rfl, le_rfl, rfl, rfl, rfl, rfl, List.prefix_rfl⟩
  | _ =>
    have hgrows := exec_grows h nofun nofun nofun
    obtain ⟨u, r, hframe, rfl⟩ := exec_frame _ s t h nofun nofun nofun
    exact .of_console hframe hgrows

/-- Settles O44: every operation keeps the machine's frame. -/
theorem noOperationWritesParametersOrTurnsClockBack : Obligations.NoOperationWritesParametersOrTurnsClockBack := by
  intro i s t h
  obtain ⟨hcfg, hclock, hput, htx, hbooted, hcalling, hepoch, hschedule, hlog⟩ := exec_machineFrame h
  exact ⟨hcfg, hclock, hput, htx, hbooted, hcalling, hepoch, hschedule, hlog⟩

end Sys2Proof.Machine
end

section
/-! PROOFS. The statements of reset, BOOT and delivery (spec/70_reset_and_hazards.md R220 to R227; spec/30_encoding.md R87;
spec/60_exceptions.md R186 to R200, R231): the values at reset, what a record's delivery runs and refuses, who may issue
what, BOOT, and that a step is a whole event, tick or operation. -/

namespace Sys2Proof.Machine

/-! The state at reset -/

/-- Settles O45: read off `State.resetOf`. -/
theorem resetLeavesValuesOfR44 : Obligations.ResetLeavesValuesOfR44 := by
  have hch : ∀ i < State.reset.cfg.nCh, State.reset.ch[i]? = some .reset ∧ State.reset.pinOut[i]? = some false :=
    fun i hi => ⟨List.getElem?_replicate_of_lt hi, List.getElem?_replicate_of_lt hi⟩
  exact ⟨rfl, rfl, rfl, fun _ => rfl, rfl, rfl, rfl, rfl, rfl, rfl, fun _ => rfl, rfl, rfl, hch, rfl, rfl⟩

theorem bridgeInv_resetOf (p : Params) : (State.resetOf p).BridgeInv :=
  ⟨nofun, fun hpos => absurd hpos (Nat.lt_irrefl 0), nofun, fun _ => rfl⟩

/-- Settles O46: the default parameters keep R7. -/
theorem resetMeetsTheInvariants : Obligations.ResetMeetsTheInvariants :=
  ⟨State.inv_resetOf (by decide), bridgeInv_resetOf _⟩

/-! Delivery -/

variable {s : State} {who : Issuer} {i : Instr}

theorem State.notified_eq_true_iff :
    s.notified i = true ↔ (i = .rxrdy → s.rxNotifyEn = true) ∧ (i = .txrdy → s.txNotifyEn = true) := by
  cases i <;> simp [State.notified]

/-- What bars a record, in the order it is asked (R87, R226, R231). -/
theorem State.barrier_eq (hmay : mayIssue who i = true) (hcall : s.calling = who.call) :
    s.barrier who i =
      if who ≠ .bench ∧ s.booted = false then some .notBooted
      else if s.notified i = false then some .notificationDisabled
      else none := by
  rw [State.barrier, if_neg (by simp [hmay]), if_neg (by simp [hcall])]

/-- Settles O48: nothing bars the record. -/
theorem stepRunsTheDecodedInstruction : Obligations.StepRunsTheDecodedInstruction := by
  intro s who bytes after d rest i hsch hdec hmay hcall hbooted hrx htx
  have hbar : s.barrier who i = none := by
    rw [State.barrier_eq hmay hcall, if_neg (by rcases hbooted with h | h <;> simp [h]),
      if_neg (by simp [State.notified_eq_true_iff.mpr ⟨hrx, htx⟩])]
  rw [step_record hsch hdec, hbar, Option.elim_none]

/-- Settles O49: each clause is one of the questions a barrier asks, those before it answered. -/
theorem deliveryOutsideTheRulesIsRefused : Obligations.DeliveryOutsideTheRulesIsRefused := by
  intro s who bytes d rest hsch
  refine ⟨fun e he => ?_, fun i after hdec => ?_⟩
  · simp only [step_eq_runItem hsch, State.runItem, State.deliverRecord, he]
  have hrefused : ∀ why, s.barrier who i = some why → step s = .refused why := fun why hbar => by
    rw [step_record hsch hdec, hbar, Option.elim_some]
  refine ⟨fun hmay => hrefused _ (if_pos hmay), fun hmay hcall => hrefused _ ?_,
    fun hmay hcall hbench hboot => hrefused _ ?_, fun hmay hcall hboot hi hen => hrefused _ ?_,
    fun hmay hcall hboot hi hen => hrefused _ ?_⟩
  · rw [State.barrier, if_neg (by simp [hmay]), if_pos hcall]
  · rw [State.barrier_eq hmay hcall, if_pos ⟨hbench, hboot⟩]
  · subst hi
    rw [State.barrier_eq hmay hcall, if_neg (by simp [hboot])]
    exact if_pos hen
  · subst hi
    rw [State.barrier_eq hmay hcall, if_neg (by simp [hboot])]
    exact if_pos hen

/-! Issuers -/

theorem mayIssue_transport_iff : mayIssue .transport i = true ↔ i = .rxrdy ∨ i = .txrdy := by
  cases i <;> simp [mayIssue]

theorem mayIssue_timer_iff : mayIssue .timer i = true ↔ i = .tick := by
  cases i <;> simp [mayIssue]

theorem mayIssue_bench_iff : mayIssue .bench i = true ↔
    i.opcode = .put ∨ i.opcode = .get ∨ i.opcode = .space ∨ i.opcode = .used ∨ i.opcode = .tick ∨
      i.opcode = .chen ∨ i.opcode = .chdis ∨ i.opcode = .chper ∨ i.opcode = .pinset := by
  cases i <;> simp [mayIssue, Instr.opcode]

theorem contextOf_eq_task_iff : contextOf i = .task ↔ i.opcode = .tick := by
  cases i <;> simp [contextOf, Instr.opcode]

/-- Only the timer and a test bench issue the one operation of the task context (R87, R194). -/
theorem issuerContext_of_mayIssue (h : mayIssue who i = true) : issuerContext who i = contextOf i := by
  cases who with
  | bench => rfl
  | timer =>
    obtain rfl := mayIssue_timer_iff.mp h
    rfl
  | bridge | transport | handler | dispatcher | framer =>
    cases i with
    | tick => cases h
    | _ => rfl

/-- Settles O50: each operation's row of the table, and the two contexts. -/
theorem issuersAndContextsFollowTheTable : Obligations.IssuersAndContextsFollowTheTable := by
  intro who i
  refine ⟨?_, ?_, ?_, ?_, ?_, ?_, ?_, ?_, contextOf_eq_task_iff, issuerContext_of_mayIssue⟩
  all_goals cases i <;> simp [Instr.opcode, mayIssue, or_assoc]

/-! RESET, BOOT and ARRIVE -/

theorem State.atReset_hardReset (s : State) : s.hardReset.atReset = true :=
  s.hardReset.atReset_iff.mpr rfl

/-- Settles O51: the state RESET leaves is at its reset values, so BOOT runs, and both keep the invariants. -/
theorem resetThenBootGivesLaunchState : Obligations.ResetThenBootGivesLaunchState := by
  refine ⟨fun s table msg rest hcfg htable hsch => ?_, fun s data rest hsch => step_eq_runItem hsch⟩
  let r : State := State.hardReset { s with schedule := .boot table msg :: rest }
  have hboot : step r = .next (State.boot { r with schedule := rest } table msg) := by
    rw [step_boot (s := r) rfl, if_neg nofun, if_neg (by simp [r, State.atReset_hardReset]), if_pos htable]
  have hinv : State.Inv { r with schedule := rest } := State.inv_congr rfl rfl rfl rfl rfl (State.inv_resetOf hcfg)
  have hbridge : State.BridgeInv { r with schedule := rest } :=
    State.bridgeInv_congr rfl rfl rfl rfl rfl rfl (bridgeInv_resetOf s.cfg)
  exact ⟨r, _, step_eq_runItem hsch, rfl, hboot, rfl, inv_boot hinv htable msg, bridgeInv_boot hbridge rfl table msg⟩

/-- Settles O59: BOOT asks its three questions in turn; the state at its reset values is `State.atReset`. -/
theorem bootRunsOnceFromTheResetState : Obligations.BootRunsOnceFromTheResetState := by
  intro s table msg rest hsch
  rw [step_boot hsch]
  refine ⟨fun hb => if_pos hb, fun hb hr => ?_, fun hb hr ht => ?_, fun hb hr ht => ?_⟩
  · rw [if_neg (by simp [hb]), if_pos (Bool.eq_false_iff.mpr (mt s.atReset_iff.mp hr))]
  · rw [if_neg (by simp [hb]), if_neg (by simp [s.atReset_iff.mpr hr]), if_neg (by simp [ht])]
  · rw [if_neg (by simp [hb]), if_neg (by simp [s.atReset_iff.mpr hr]), if_pos ht]
    rfl

/-- Settles O58: by the cases of a step; with no call running a record comes from the transport, the timer or a test bench. -/
theorem stepsAreWholeEventsAndTicks : Obligations.StepsAreWholeEventsAndTicks := by
  refine ⟨rfl, fun s t hcall h => ?_⟩
  cases StepTo.of_step h with
  | idle hsch ht => exact ⟨ht ▸ hcall, .inl ⟨hsch, ht⟩⟩
  | reset rest hsch ht => exact ⟨ht ▸ rfl, .inr (.inl ⟨rest, hsch⟩)⟩
  | boot table msg rest hsch _ _ _ ht => exact ⟨ht ▸ hcall, .inr (.inr (.inl ⟨table, msg, rest, hsch⟩))⟩
  | arrive data rest hsch ht => exact ⟨ht ▸ hcall, .inr (.inr (.inr (.inl ⟨data, rest, hsch⟩)))⟩
  | record who bytes d rest i after hsch hdec hbar ht =>
    obtain ⟨hmay, hwho, hbooted, hnote⟩ := State.barrier_none hbar
    refine ⟨(exec_machineFrame ht).calling, .inr (.inr (.inr (.inr ⟨who, bytes, d, rest, i, after, hsch, hdec, ?_, ?_⟩)))⟩
    · rwa [hcall]
    · cases who with
      | transport =>
        have hboot := hbooted.resolve_left nofun
        obtain ⟨hrx, htx⟩ := State.notified_eq_true_iff.mp hnote
        exact .inl ⟨rfl, hboot, (mayIssue_transport_iff.mp hmay).imp (fun h => ⟨h, hrx h⟩) fun h => ⟨h, htx h⟩⟩
      | timer => exact .inr (.inl ⟨rfl, hbooted.resolve_left nofun, mayIssue_timer_iff.mp hmay⟩)
      | bench => exact .inr (.inr ⟨rfl, mayIssue_bench_iff.mp hmay⟩)
      | bridge | handler | dispatcher | framer => exact absurd (hcall.symm.trans hwho) nofun

end Sys2Proof.Machine
end
